-- ==== Sys2Proof/Word.lean ====
section
/-! DEFINITION. The word types of QD2 (R6, R7, R20): a segment code, the display buffer word, a command word. -/

namespace Sys2Proof

/-- One 8-bit segment code (R100). -/
abbrev SegCode := BitVec 8

/-- The 32-bit word of `DBUF` (R21). -/
abbrev Word := BitVec 32

/-- A 64-bit command word `CMD` (R70, R71). -/
abbrev CmdWord := BitVec 64

end Sys2Proof
end

