-- ==== Sys2Proof/Config.lean ====
section
/-! DEFINITION. What is fixed when an instance of QD2 is built (R3, R6), and the values the spec leaves open.
The parameters are plain data and stand in State, so that every statement holds for every choice of them.
The opaque constants are free values: nothing can evaluate them. -/

namespace Sys2Proof

/-- `MODE` (R23): the transport, fixed at construction. -/
inductive Mode where
  | bitbang
  | burst
  deriving DecidableEq, Repr

/-- `POL` (R24): the wiring of the attached module, fixed at construction. -/
inductive Polarity where
  | cc
  | ca
  deriving DecidableEq, Repr

/-- `BLINK_LIT_PHASE` (R6, R117): the half of the blink period in which the colon is lit. -/
inductive BlinkPhase where
  | even
  | odd
  deriving DecidableEq, Repr

/-- `FLOAT_SCALE` (R6, R112): the reading of "scales `value` by 10^precision, truncates to an integer". -/
inductive FloatScale where
  /-- The default: one binary32 product by binary32(10^p), then truncation. -/
  | single
  /-- Iterated scaling: a binary32 product by 10, `p` times, then truncation. -/
  | iterated
  /-- Exact scaling: truncation of the exact product. -/
  | exact
  /-- Any other admitted function of the datum and the precision (R112): a free value. -/
  | other
  deriving DecidableEq, Repr

/-- `GLYPHS` (R20, R25, R102): the read-only table of 17 segment codes. -/
structure Glyphs where
  /-- `NUM[0]` to `NUM[9]`. -/
  numeral : Vector SegCode 10
  blank : SegCode
  minus : SegCode
  dot : SegCode
  degree : SegCode
  c : SegCode
  underDegree : SegCode
  underscoreDot : SegCode
  deriving DecidableEq, Repr

/-- FREE VALUE (R153, K1.3): the level of `DATA` after the n-th serial byte since reset. -/
opaque Config.spiDataLevel : Nat → Bool

/-- FREE VALUE (R112, K1.1): the integer shown where no rule states it. These are every operand of the reading
`other`, and the non-finite and overflowing operands of the readings `iterated` and `exact`. -/
opaque Config.floatScaleUnstated : FloatScale → BitVec 32 → Nat → Int

end Sys2Proof
end

