-- ==== Sys2Proof/Syntax.lean ====
section
/-! DEFINITION. The commands of QD2 with their operands as decoded (R77): one constructor per row of the opcode table. -/

namespace Sys2Proof

/-- A command. Numbers (R77's `sext` and `zext` operands) are mathematical integers; segment codes, the buffer word,
the dot mask and the binary32 datum are bit vectors; one-bit operands are Booleans, true being 1. -/
inductive Instr where
  /-- SETDIGITS `d1, d2, d3, d4` (R201). -/
  | setDigits (d1 d2 d3 d4 : SegCode)
  /-- SETSEG `w` (R202). -/
  | setSeg (w : Word)
  /-- CLEAR (R203). -/
  | clear
  /-- SETINT `v, pad, dots` (R204). -/
  | setInt (v : Int) (pad : Bool) (dots : BitVec 4)
  /-- SETFLOAT `x, p, pad` (R205). -/
  | setFloat (x : BitVec 32) (p : Nat) (pad : Bool)
  /-- SETTEMPC `v, pad` (R206). -/
  | setTempC (v : Int) (pad : Bool)
  /-- SETHUM `v, pad` (R207). -/
  | setHum (v : Int) (pad : Bool)
  /-- SETSCORE `h, m, blink, now` (R208). -/
  | setScore (h m : Nat) (blink : Bool) (now : Nat)
  /-- SETIP `o` (R209). -/
  | setIp (o : Nat)
  /-- PUSHBIT `b` (R210). -/
  | pushBit (b : Bool)
  /-- GETPIX `i` (R211). -/
  | getPix (i : Nat)
  /-- BEGIN (R212). -/
  | beginCmd
  /-- END (R213). -/
  | endCmd
  deriving DecidableEq, Repr

end Sys2Proof
end

