-- ==== Sys2Proof/WellFormed.lean ====
section
/-! DEFINITION. Well-formed commands: every operand lies in the range that R80 and the formats of R72 to R76 give it. -/

namespace Sys2Proof

/-- A 32-bit two's complement value: -2^31 to 2^31 - 1 (R80, D5). -/
def fitsSigned32 (v : Int) : Bool :=
  decide (-(2 ^ 31) ≤ v ∧ v < 2 ^ 31)

/-- The operand ranges of R80; an operand outside its range has no encoding. -/
def WellFormed : Instr → Bool
  | .setDigits _ _ _ _ => true
  | .setSeg _ => true
  | .clear => true
  | .setInt v _ _ => fitsSigned32 v
  | .setFloat _ p _ => decide (p < 2 ^ 4)
  | .setTempC v _ => fitsSigned32 v
  | .setHum v _ => fitsSigned32 v
  | .setScore h m _ now => decide (h < 2 ^ 8 ∧ m < 2 ^ 8 ∧ now < 2 ^ 32)
  | .setIp o => decide (o < 2 ^ 8)
  | .pushBit _ => true
  | .getPix i => decide (i < 2 ^ 5)
  | .beginCmd => true
  | .endCmd => true

end Sys2Proof
end

