-- ==== Sys2Proof/Decode.lean ====
section
/-! DEFINITION. The decoder of a 64-bit command word (R71 to R79) and, after it, the encoder written from the same tables. -/

namespace Sys2Proof

/-- What decoding answers: a command, or the reason the word is reserved (R78), by name. -/
inductive Decoded where
  | command (i : Instr)
  /-- The opcode is 0x0, 0xE or 0xF. -/
  | reservedOpcode
  /-- The opcode is valid and a bit that its row's mask covers outside `op` is 1. -/
  | reservedBits
  deriving DecidableEq, Repr

/-- One row of R77's table, with its operands read from the word at hand. -/
structure Row where
  mask : CmdWord
  pattern : CmdWord
  instr : Instr
  deriving DecidableEq, Repr

/-- The field `CMD[lo+n-1:lo]` (R7). -/
def field (w : CmdWord) (lo n : Nat) : BitVec n :=
  w.extractLsb' lo n

/-- `op = CMD[63:60]` (R71). -/
def opcode (w : CmdWord) : BitVec 4 :=
  field w 60 4

/-- R77's table: the row of a word's opcode, and its operands as decoded. -/
def rowOf (w : CmdWord) : Option Row :=
  match (opcode w).toNat with
  | 0x1 => some ⟨0xFFFFFFFF00000000, 0x1000000000000000, .setDigits (field w 24 8) (field w 16 8) (field w 8 8) (field w 0 8)⟩
  | 0x2 => some ⟨0xFFFFFFFF00000000, 0x2000000000000000, .setSeg (field w 0 32)⟩
  | 0x3 => some ⟨0xFFFFFFFFFFFFFFFF, 0x3000000000000000, .clear⟩
  | 0x4 => some ⟨0xFFFFFFE000000000, 0x4000000000000000, .setInt (field w 0 32).toInt (w.getLsbD 36) (field w 32 4)⟩
  | 0x5 => some ⟨0xFFFFFFE000000000, 0x5000000000000000, .setFloat (field w 0 32) (field w 32 4).toNat (w.getLsbD 36)⟩
  | 0x6 => some ⟨0xFFFFFFEF00000000, 0x6000000000000000, .setTempC (field w 0 32).toInt (w.getLsbD 36)⟩
  | 0x7 => some ⟨0xFFFFFFEF00000000, 0x7000000000000000, .setHum (field w 0 32).toInt (w.getLsbD 36)⟩
  | 0x8 => some ⟨0xFFFE000000000000, 0x8000000000000000,
      .setScore (field w 32 8).toNat (field w 40 8).toNat (w.getLsbD 48) (field w 0 32).toNat⟩
  | 0x9 => some ⟨0xFFFFFFFFFFFFFF00, 0x9000000000000000, .setIp (field w 0 8).toNat⟩
  | 0xA => some ⟨0xFFFFFFFFFFFFFFFE, 0xA000000000000000, .pushBit (w.getLsbD 0)⟩
  | 0xB => some ⟨0xFFFFFFFFFFFFFFE0, 0xB000000000000000, .getPix (field w 0 5).toNat⟩
  | 0xC => some ⟨0xFFFFFFFFFFFFFFFF, 0xC000000000000000, .beginCmd⟩
  | 0xD => some ⟨0xFFFFFFFFFFFFFFFF, 0xD000000000000000, .endCmd⟩
  | _ => none

/-- Decoding, total on every word: "a word is the command when `CMD & mask = match`" (R77), else it is reserved (R78). -/
def decode (w : CmdWord) : Decoded :=
  match rowOf w with
  | none => .reservedOpcode
  | some r => if w &&& r.mask = r.pattern then .command r.instr else .reservedBits

/-- The command read from an instruction of `nbits` bits whose value is `w`; a command word has 64 bits (R71). -/
def decodeTableWord (nbits w : Nat) : Option Instr :=
  let v := w % 2 ^ nbits
  if v < 2 ^ 64 then
    match decode (BitVec.ofNat 64 v) with
    | .command i => some i
    | .reservedOpcode => none
    | .reservedBits => none
  else none

/-- The value `v` placed with its bit 0 at bit `lo` of a command word (R7). -/
def place {n : Nat} (v : BitVec n) (lo : Nat) : CmdWord :=
  v.setWidth 64 <<< lo

/-- Format N (R72). -/
def formatN (op : BitVec 4) : CmdWord :=
  place op 60

/-- Format W (R73), its word given as one value. -/
def formatW (op : BitVec 4) (w : Word) : CmdWord :=
  place op 60 ||| place w 0

/-- Format W (R73), its word given as the four codes `D1` to `D4`. -/
def formatDigits (op : BitVec 4) (d1 d2 d3 d4 : SegCode) : CmdWord :=
  place op 60 ||| place d1 24 ||| place d2 16 ||| place d3 8 ||| place d4 0

/-- Format V (R74). -/
def formatV (op : BitVec 4) (pad : Bool) (aux : BitVec 4) (val : BitVec 32) : CmdWord :=
  place op 60 ||| place (BitVec.ofBool pad) 36 ||| place aux 32 ||| place val 0

/-- Format S (R75). -/
def formatS (op : BitVec 4) (blink : Bool) (min hour : BitVec 8) (now : BitVec 32) : CmdWord :=
  place op 60 ||| place (BitVec.ofBool blink) 48 ||| place min 40 ||| place hour 32 ||| place now 0

/-- Format B (R76), with the operand's own width: 8, 5 or 1 bits of `IMM8`, the others 0. -/
def formatB {n : Nat} (op : BitVec 4) (imm : BitVec n) : CmdWord :=
  place op 60 ||| place imm 0

/-- The command word of a command, by the formats of R72 to R76 and the opcodes of R77. -/
def encode : Instr → CmdWord
  | .setDigits d1 d2 d3 d4 => formatDigits 0x1 d1 d2 d3 d4
  | .setSeg w => formatW 0x2 w
  | .clear => formatN 0x3
  | .setInt v pad dots => formatV 0x4 pad dots (BitVec.ofInt 32 v)
  | .setFloat x p pad => formatV 0x5 pad (BitVec.ofNat 4 p) x
  | .setTempC v pad => formatV 0x6 pad 0 (BitVec.ofInt 32 v)
  | .setHum v pad => formatV 0x7 pad 0 (BitVec.ofInt 32 v)
  | .setScore h m blink now => formatS 0x8 blink (BitVec.ofNat 8 m) (BitVec.ofNat 8 h) (BitVec.ofNat 32 now)
  | .setIp o => formatB 0x9 (BitVec.ofNat 8 o)
  | .pushBit b => formatB 0xA (BitVec.ofBool b)
  | .getPix i => formatB 0xB (BitVec.ofNat 5 i)
  | .beginCmd => formatN 0xC
  | .endCmd => formatN 0xD

end Sys2Proof
end

