-- ==== Sys2Proof/Machine/Glyphs.lean ====
section
/-! DEFINITION. The segment layout of a code (R100, R101), the default glyph ROM (R102) and the numeral lookup (R103). -/

namespace Sys2Proof.Machine

/-- A segment of one digit, or its decimal point. The places are those of R101. -/
inductive Segment where
  /-- top -/
  | a
  /-- upper right -/
  | b
  /-- lower right -/
  | c
  /-- bottom -/
  | d
  /-- lower left -/
  | e
  /-- upper left -/
  | f
  /-- middle -/
  | g
  /-- the dot at the lower right -/
  | dp
  deriving DecidableEq, Repr

/-- The bit of a segment code that a segment has: bit 7 = a down to bit 1 = g, bit 0 = DP (R100). -/
def segmentBit : Segment → Nat
  | .a => 7
  | .b => 6
  | .c => 5
  | .d => 4
  | .e => 3
  | .f => 2
  | .g => 1
  | .dp => 0

/-- "A bit that is 1 means the segment is lit" (R100). -/
def segmentLit (code : SegCode) (x : Segment) : Bool :=
  code.getLsbD (segmentBit x)

/-- The default glyph ROM: the 17 codes of R102. -/
def glyphRom : Glyphs where
  numeral := #v[0xFC, 0x60, 0xDA, 0xF2, 0x66, 0xB6, 0xBE, 0xE0, 0xFE, 0xF6]
  blank := 0x00
  minus := 0x02
  dot := 0x01
  degree := 0xC6
  c := 0x9C
  underDegree := 0x3A
  underscoreDot := 0x11

/-- `NUM[m mod 10]` (R103): the encoder only ever indexes with a decimal digit of a magnitude. -/
def numeralOf (gl : Glyphs) (m : Nat) : SegCode :=
  gl.numeral[m % 10]'(Nat.mod_lt m (by decide))

end Sys2Proof.Machine
end

