-- ==== Sys2Proof/Machine/State.lean ====
section
/-! DEFINITION. The state of one QD2 instance (R20), its reset (R270), the wire events (R150) and the reasons a step can stop. -/

namespace Sys2Proof.Machine

/-- The three lines `STB`, `DATA` and `CLK` (R28). -/
inductive Line where
  | stb
  | data
  | clk
  deriving DecidableEq, Repr

/-- A line's direction: `OUT` drives the pin, `IN` leaves it undriven (R28). -/
inductive Dir where
  | input
  | output
  deriving DecidableEq, Repr

/-- A wire event (R150): one request to the digital I/O primitive or to the serial peripheral. -/
inductive Event where
  /-- `DIR(L, d)`: set the direction of a line. -/
  | dir (l : Line) (d : Dir)
  /-- `LVL(L, v)`: request a level on a line. -/
  | lvl (l : Line) (v : Bool)
  /-- `SPI_INIT`: initialise the serial peripheral. -/
  | spiInit
  /-- `SPI_BYTE(b)`: transfer a byte MSB-first. -/
  | spiByte (b : BitVec 8)
  deriving DecidableEq, Repr

/-- The registers `DIR_L` and `LVL_L` of one line (R28). -/
structure LineReg where
  dir : Dir
  lvl : Bool
  deriving DecidableEq, Repr

/-- The state of R20, the instance's parameters of R6 that a rule depends on, and two fields of the model's own. -/
structure State where
  /-- `DBUF` (R21). -/
  dbuf : Word
  /-- `MODE` (R23). -/
  mode : Mode
  /-- `POL` (R24). -/
  pol : Polarity
  /-- `GLYPHS` (R25). -/
  glyphs : Glyphs
  /-- `CLAIMED` (R26). -/
  claimed : Bool
  /-- `SPI_EN` (R27). -/
  spiEn : Bool
  /-- `DIR_STB`, `LVL_STB` (R28). -/
  stb : LineReg
  /-- `DIR_DATA`, `LVL_DATA` (R28). -/
  data : LineReg
  /-- `DIR_CLK`, `LVL_CLK` (R28). -/
  clk : LineReg
  /-- `RDATA` (R29). -/
  rdata : Bool
  /-- `TRACE` (R30), oldest event first. -/
  trace : List Event
  /-- `FLOAT_SCALE` (R112), a parameter of the instance. -/
  floatScale : FloatScale
  /-- `BLINK_LIT_PHASE` (R117), a parameter of the instance. -/
  blinkLit : BlinkPhase
  /-- The model's own: the command words the host has yet to present, in issue order (R32, D23). It is no queue of QD2. -/
  port : List CmdWord
  /-- The model's own: how many free values of `Config.spiDataLevel` have been drawn. -/
  drawn : Nat
  deriving DecidableEq, Repr

/-- Construction of an instance (R270): the mode is required, the polarity is `CA` if none is given (R24), the
parameters have the defaults of R6. -/
def State.construct (mode : Mode) (pol : Polarity := .ca) (glyphs : Glyphs := glyphRom)
    (floatScale : FloatScale := .single) (blinkLit : BlinkPhase := .even) : State where
  dbuf := 0
  mode := mode
  pol := pol
  glyphs := glyphs
  claimed := false
  spiEn := false
  stb := ⟨.input, false⟩
  data := ⟨.input, false⟩
  clk := ⟨.input, false⟩
  rdata := false
  trace := []
  floatScale := floatScale
  blinkLit := blinkLit
  port := []
  drawn := 0

/-- The machine right after reset. DESIGN CHOICE (log entry 1): the spec gives `MODE` no default; this is `BITBANG`,
and `State.construct` gives the reset of either mode. -/
def State.reset : State :=
  State.construct .bitbang

/-- QD2 has no fault: "There is no exception/error-return taxonomy"; "there is no failure path" (R33, R240).
No constructor: nothing raises one. -/
inductive Fault where
  deriving DecidableEq, Repr

/-- Why a step has no meaning. -/
inductive Refusal where
  /-- An arm of `exec` with no meaning yet. Raised by no arm of this model. Safe: a run that reaches it stops. -/
  | notModelled (mnemonic : String)
  /-- Raised by `step` on a word whose opcode is 0x0, 0xE or 0xF (R78: "A model must refuse a reserved command word").
  Safe: a run that reaches it stops. -/
  | reservedOpcode (w : CmdWord)
  /-- Raised by `step` on a word with a valid opcode and a reserved bit set (R78). Safe: a run that reaches it stops. -/
  | reservedBits (w : CmdWord)
  deriving DecidableEq, Repr

end Sys2Proof.Machine
end

