-- ==== Sys2Proof/Machine/Operands.lean ====
section
/-! DEFINITION. The float operand: IEEE 754 binary32 (D6), rounding to nearest with ties to even, and `FLOAT_SCALE` (R112).
Values are exact rationals; rounding and truncation are explicit. -/

namespace Sys2Proof.Machine

/-- The value of a binary32 datum; none for a NaN and for the infinities. -/
def binary32Value (x : BitVec 32) : Option Rat :=
  let e := (x.extractLsb' 23 8).toNat
  let f := (x.extractLsb' 0 23).toNat
  let m : Nat := if e = 0 then f * 2 else (2 ^ 23 + f) * 2 ^ e
  if e = 255 then none
  else some (mkRat (if x.getLsbD 31 then -(m : Int) else (m : Int)) (2 ^ 150))

/-- The integer nearest to `n / d`, ties to even. -/
def nearestEven (n d : Nat) : Nat :=
  let q := n / d
  let r := n % d
  if d < 2 * r ∨ (2 * r = d ∧ q % 2 = 1) then q + 1 else q

/-- The significand `m` and the exponent `k` of the binary32 magnitude `m * 2^(k - 149)` nearest to `n / d`. The last
place is `2^(k - 149)`: `k` is 0 in the subnormal range, else such that the significand has 24 bits. -/
def roundMagnitude (n d : Nat) : Nat × Nat :=
  let k := Nat.log2 (n * 2 ^ 126 / d)
  (nearestEven (n * 2 ^ 149) (d * 2 ^ k), k)

/-- A rounded magnitude of 2^128 or more is infinite: `m * 2^(k - 149) ≥ 2^128`. -/
def overflowsBinary32 (mk : Nat × Nat) : Bool :=
  decide (2 ^ 24 * 2 ^ 253 ≤ mk.1 * 2 ^ mk.2)

/-- The binary32 value nearest to `r`, ties to even; none when that is an infinity. -/
def roundBinary32 (r : Rat) : Option Rat :=
  let mk := roundMagnitude r.num.natAbs r.den
  let m : Nat := mk.1 * 2 ^ mk.2
  if overflowsBinary32 mk then none
  else some (mkRat (if r < 0 then -(m : Int) else (m : Int)) (2 ^ 149))

/-- `trunc(r)`: round toward zero (R8). -/
def truncRat (r : Rat) : Int :=
  r.num.tdiv r.den

/-- The default `FLOAT_SCALE(x, p)` (R112): one binary32 product; 0 for NaN, the infinities and an overflowing product. -/
def floatScaleSingle (x : BitVec 32) (p : Nat) : Int :=
  match binary32Value x, roundBinary32 (10 ^ p) with
  | some v, some s =>
    match roundBinary32 (v * s) with
    | some t => truncRat t
    | none => 0
  | _, _ => 0

/-- `p` products by 10, each rounded to binary32; none once one overflows. -/
def scaleIterated : Nat → Rat → Option Rat
  | 0, r => some r
  | p + 1, r => (roundBinary32 (r * 10)).bind (scaleIterated p)

/-- Iterated scaling (R112); the spec states no result for a non-finite datum or an overflow, so that value is free. -/
def floatScaleIterated (x : BitVec 32) (p : Nat) : Int :=
  match (binary32Value x).bind (scaleIterated p) with
  | some t => truncRat t
  | none => Config.floatScaleUnstated .iterated x p

/-- Exact scaling (R112); the spec states no result for a non-finite datum, so that value is free. -/
def floatScaleExact (x : BitVec 32) (p : Nat) : Int :=
  match binary32Value x with
  | some v => truncRat (v * 10 ^ p)
  | none => Config.floatScaleUnstated .exact x p

/-- `FLOAT_SCALE(x, p)` (R112) under the instance's parameter. -/
def floatScaleOf (reading : FloatScale) (x : BitVec 32) (p : Nat) : Int :=
  match reading with
  | .single => floatScaleSingle x p
  | .iterated => floatScaleIterated x p
  | .exact => floatScaleExact x p
  | .other => Config.floatScaleUnstated .other x p

end Sys2Proof.Machine
end

