-- ==== Sys2Proof/Machine/Encoder.lean ====
section
/-! DEFINITION. The encoder: field formatter (R105), dots (R109), the value formats (R110 to R119) and the buffer packer
(R120). Every function is pure and total (R121). Lists of codes are leftmost digit first (R9). -/

namespace Sys2Proof.Machine

/-- The loop of `FormatField` (R105), entered with `i` positions still free on the left and the magnitude `m` left to
write. Answers the index of the leftmost digit written and the field. -/
def fieldLoop (gl : Glyphs) (pad : Bool) {W : Nat} : Nat → Nat → Vector SegCode W → Nat × Vector SegCode W
  | 0, _, F => (0, F)
  | i + 1, m, F =>
    if i = 0 ∨ (m / 10 = 0 ∧ pad = false) then (i, F.setIfInBounds i (numeralOf gl m))
    else fieldLoop gl pad i (m / 10) (F.setIfInBounds i (numeralOf gl m))

/-- `FormatField(v, W, pad)` (R105). The minus sign goes to index `max(0, i - 1)`, which is `i - 1` on naturals. -/
def formatField (gl : Glyphs) (v : Int) (W : Nat) (pad : Bool) : Vector SegCode W :=
  let r := fieldLoop gl pad W v.natAbs (Vector.replicate W gl.blank)
  if v < 0 then r.2.setIfInBounds (r.1 - 1) gl.minus else r.2

/-- One code with the decimal point ORed in when asked (R109). -/
def withDot (gl : Glyphs) (lit : Bool) (code : SegCode) : SegCode :=
  if lit then code ||| gl.dot else code

/-- `ApplyDots(F, dots)` (R109): mask bit `3 - k` selects index `k`. -/
def applyDots (gl : Glyphs) (F : Vector SegCode 4) (dots : BitVec 4) : Vector SegCode 4 :=
  #v[withDot gl (dots.getLsbD 3) F[0], withDot gl (dots.getLsbD 2) F[1],
     withDot gl (dots.getLsbD 1) F[2], withDot gl (dots.getLsbD 0) F[3]]

/-- `EncodeInteger(v, pad, dots)` (R110). -/
def encodeInteger (gl : Glyphs) (v : Int) (pad : Bool) (dots : BitVec 4) : Vector SegCode 4 :=
  applyDots gl (formatField gl v 4 pad) dots

/-- `DotMaskFor(p)` (R113): `1 << p` on 4 bits for p in 0..3, and 0 from p = 4 on. -/
def dotMaskFor (p : Nat) : BitVec 4 :=
  if p < 4 then 1#4 <<< p else 0

/-- `EncodeFloat(x, p, pad)` (R111). -/
def encodeFloat (gl : Glyphs) (reading : FloatScale) (x : BitVec 32) (p : Nat) (pad : Bool) : Vector SegCode 4 :=
  encodeInteger gl (floatScaleOf reading x p) pad (dotMaskFor p)

/-- `EncodeTemperatureC(v, pad)` (R114). -/
def encodeTemperatureC (gl : Glyphs) (v : Int) (pad : Bool) : Vector SegCode 4 :=
  let F := formatField gl v 2 pad
  #v[F[0], F[1], gl.degree, gl.c]

/-- `EncodeHumidity(v, pad)` (R115). -/
def encodeHumidity (gl : Glyphs) (v : Int) (pad : Bool) : Vector SegCode 4 :=
  let F := formatField gl v 2 pad
  #v[F[0], F[1], gl.degree, gl.underDegree]

/-- The blink half-period: "a fixed 500-time-unit half-period" (R6, R117). -/
def blinkHalfPeriod : Nat := 500

/-- `Colon(blink, now)` (R117). -/
def colon (lit : BlinkPhase) (blink : Bool) (now : Nat) : Bool :=
  if blink then
    match lit with
    | .even => now / blinkHalfPeriod % 2 == 0
    | .odd => now / blinkHalfPeriod % 2 == 1
  else true

/-- `EncodeScore(h, m, blink, now)` (R116): the tens and units of each number, with the colon on digit 2. -/
def encodeScore (gl : Glyphs) (lit : BlinkPhase) (h m : Nat) (blink : Bool) (now : Nat) : Vector SegCode 4 :=
  #v[numeralOf gl (h / 10), withDot gl (colon lit blink now) (numeralOf gl h), numeralOf gl (m / 10), numeralOf gl m]

/-- `EncodeIPOctet(o)` (R118): no dot but the one in the leading glyph (R119). -/
def encodeIpOctet (gl : Glyphs) (o : Nat) : Vector SegCode 4 :=
  let F := formatField gl o 3 false
  #v[gl.underscoreDot, F[0], F[1], F[2]]

/-- `Pack(d1, d2, d3, d4)` (R120): digit 1 in the most significant byte,
`(d1 << 24) | (d2 << 16) | (d3 << 8) | d4`. -/
def pack (F : Vector SegCode 4) : Word :=
  (F[0].setWidth 32 <<< 24) ||| (F[1].setWidth 32 <<< 16) ||| (F[2].setWidth 32 <<< 8) ||| F[3].setWidth 32

end Sys2Proof.Machine
end

