-- ==== Sys2Proof/Machine/Ops.lean ====
section
/-! DEFINITION. The named operations over the state: registers, the `emit` primitive (R9, R151), the polarity inverter
(R160), commit (R155 to R159), claim (R164), release (R166) and the command port (R70). -/

namespace Sys2Proof.Machine

/-! ### Registers -/

/-- `DBUF <- v` (R9). -/
def State.withDbuf (s : State) (w : Word) : State := { s with dbuf := w }

/-- `RDATA <- v` (R29). -/
def State.withRdata (s : State) (b : Bool) : State := { s with rdata := b }

/-- `CLAIMED <- v` (R26). -/
def State.withClaimed (s : State) (b : Bool) : State := { s with claimed := b }

/-- `SPI_EN <- v` (R27). -/
def State.withSpiEn (s : State) (b : Bool) : State := { s with spiEn := b }

/-- The registers of line `l` (R28). -/
def State.line (s : State) : Line → LineReg
  | .stb => s.stb
  | .data => s.data
  | .clk => s.clk

/-- Write the registers of line `l` (R28). -/
def State.withLine (s : State) (l : Line) (r : LineReg) : State :=
  match l with
  | .stb => { s with stb := r }
  | .data => { s with data := r }
  | .clk => { s with clk := r }

/-- `DIR_L <- d` (R151). -/
def State.withDir (s : State) (l : Line) (d : Dir) : State :=
  s.withLine l ⟨d, (s.line l).lvl⟩

/-- `LVL_L <- v` (R151). -/
def State.withLvl (s : State) (l : Line) (v : Bool) : State :=
  s.withLine l ⟨(s.line l).dir, v⟩

/-- Append one event to `TRACE` (R30). -/
def State.log (s : State) (e : Event) : State := { s with trace := s.trace ++ [e] }

/-- What the host presents from now on. -/
def State.withPort (s : State) (p : List CmdWord) : State := { s with port := p }

/-- Count one free value as drawn. -/
def State.draw (s : State) : State := { s with drawn := s.drawn + 1 }

/-- The level a line puts on its pin: `LVL_L` when `DIR_L = OUT`, nothing when `DIR_L = IN` (R154). -/
def State.pin (s : State) (l : Line) : Option Bool :=
  match (s.line l).dir with
  | .output => some (s.line l).lvl
  | .input => none

/-! ### Wire events -/

/-- The effect of a wire event on the line registers (R151, R152, R153). After a serial byte `LVL_CLK = 0` and
`LVL_DATA` is any value, here a free value. -/
def applyEvent (e : Event) (s : State) : State :=
  match e with
  | .dir l d => s.withDir l d
  | .lvl l v => s.withLvl l v
  | .spiInit => ((s.withSpiEn true).withLine .data ⟨.output, false⟩).withLine .clk ⟨.output, false⟩
  | .spiByte _ => ((s.withLvl .clk false).withLvl .data (Config.spiDataLevel s.drawn)).draw

/-- `emit e` (R151): append `e` to `TRACE`, then apply its effect at once. -/
def emit (e : Event) (s : State) : State :=
  applyEvent e (s.log e)

/-- `emit` for a list of events, in order (R58). -/
def emitAll : List Event → State → State
  | [], s => s
  | e :: es, s => emitAll es (emit e s)

/-! ### Commit -/

/-- `INV` (R160). -/
def inv : Polarity → Word
  | .ca => 0xFFFFFFFF
  | .cc => 0x00000000

/-- The bits `v[n-1], ..., v[0]`, most significant first (R52). -/
def bitsDown {k : Nat} (v : BitVec k) : Nat → List Bool
  | 0 => []
  | n + 1 => v.getLsbD n :: bitsDown v n

/-- Start of a write (R158). -/
def startWrite : Mode → List Event
  | .bitbang => [.lvl .clk false, .lvl .stb false]
  | .burst => [.lvl .stb false]

/-- End of a write, in both modes: the strobe pulse (R159). -/
def endWrite : List Event :=
  [.lvl .stb true, .lvl .stb false]

/-- The events of `CommitBurst(w)` (R156). -/
def burstEvents (pol : Polarity) (w : Word) : List Event :=
  let x := w ^^^ inv pol
  startWrite .burst
    ++ [.spiByte (x.extractLsb' 24 8), .spiByte (x.extractLsb' 16 8), .spiByte (x.extractLsb' 8 8), .spiByte (x.extractLsb' 0 8)]
    ++ endWrite

/-- One bit of the bit-banged commit: present it on `DATA`, then pulse `CLK` (R157). -/
def bitEvents (v : Bool) : List Event :=
  [.lvl .data v, .lvl .clk true, .lvl .clk false]

/-- The events of `CommitBitBang(w)` (R157), with the correction bit `c = INV[0]`. -/
def bitBangEvents (pol : Polarity) (w : Word) : List Event :=
  let c := (inv pol).getLsbD 0
  startWrite .bitbang ++ (bitsDown w 32).flatMap (fun b => bitEvents (b ^^ c)) ++ endWrite

/-- The events of a commit of `w` on claimed lines, by `MODE` (R155). -/
def commitEvents (mode : Mode) (pol : Polarity) (w : Word) : List Event :=
  match mode with
  | .bitbang => bitBangEvents pol w
  | .burst => burstEvents pol w

/-- `Commit()` (R155): nothing while the lines are unclaimed. -/
def commit (s : State) : State :=
  if s.claimed then emitAll (commitEvents s.mode s.pol s.dbuf) s else s

/-- What every buffer-writing command does: write `DBUF` first, then commit, every time (R200). -/
def writeBuffer (w : Word) (s : State) : State :=
  commit (s.withDbuf w)

/-! ### Claim and release -/

/-- The events of `Claim()` (R164). -/
def claimEvents : Mode → List Event
  | .bitbang =>
    [.dir .data .output, .dir .clk .output, .lvl .data false, .lvl .clk false, .dir .stb .output, .lvl .stb false]
  | .burst => [.spiInit, .dir .stb .output, .lvl .stb false]

/-- `Claim()` (R164), whatever `CLAIMED` was (R165). -/
def claim (s : State) : State :=
  (emitAll (claimEvents s.mode) s).withClaimed true

/-- The events of `Release()` (R166), the same in both modes. -/
def releaseEvents : List Event :=
  [.lvl .stb false, .lvl .data false, .lvl .clk false, .dir .stb .input, .dir .data .input, .dir .clk .input]

/-- `Release()` (R166), whatever `CLAIMED` was (R167). -/
def release (s : State) : State :=
  (emitAll releaseEvents (s.withSpiEn false)).withClaimed false

/-! ### The command port -/

/-- The host presents `w` as the next command (R70). -/
def State.present (s : State) (w : CmdWord) : State :=
  s.withPort (w :: s.port)

/-- The next command word the host presents, and the state with it taken from the port; none while the host waits (R271). -/
def State.nextCommand (s : State) : Option (CmdWord × State) :=
  match s.port with
  | [] => none
  | w :: rest => some (w, s.withPort rest)

end Sys2Proof.Machine
end

