-- ==== Sys2Proof/Machine/Buffer.lean ====
section
/-! DEFINITION. The buffer commands SETDIGITS, SETSEG and CLEAR (R201 to R203). -/

namespace Sys2Proof.Machine

/-- SETDIGITS (R201): `DBUF <- Pack(d1, d2, d3, d4)`; `Commit()`. -/
def execSetDigits (d1 d2 d3 d4 : SegCode) (s : State) : Host.Outcome State Fault Refusal :=
  .next (writeBuffer (pack #v[d1, d2, d3, d4]) s)

/-- SETSEG (R202): `DBUF <- w`; `Commit()`. -/
def execSetSeg (w : Word) (s : State) : Host.Outcome State Fault Refusal :=
  .next (writeBuffer w s)

/-- CLEAR (R203): `DBUF <- Pack(BLANK, BLANK, BLANK, BLANK)`; `Commit()`. -/
def execClear (s : State) : Host.Outcome State Fault Refusal :=
  .next (writeBuffer (pack #v[s.glyphs.blank, s.glyphs.blank, s.glyphs.blank, s.glyphs.blank]) s)

end Sys2Proof.Machine
end

