-- ==== Sys2Proof/Machine/Lifecycle.lean ====
section
/-! DEFINITION. The lifecycle commands BEGIN and END (R212, R213). -/

namespace Sys2Proof.Machine

/-- BEGIN (R212): `Claim()`; it does not commit. -/
def execBegin (s : State) : Host.Outcome State Fault Refusal :=
  .next (claim s)

/-- END (R213): `Release()`; `DBUF` is kept. -/
def execEnd (s : State) : Host.Outcome State Fault Refusal :=
  .next (release s)

end Sys2Proof.Machine
end

