-- ==== Sys2Proof/Machine/RawBits.lean ====
section
/-! DEFINITION. The raw bit commands PUSHBIT and GETPIX (R210, R211). -/

namespace Sys2Proof.Machine

/-- `(v << 1) | zext_32(b)` on 32 bits (R210). -/
def pushWord (v : Word) (b : Bool) : Word :=
  (v <<< 1) ||| (BitVec.ofBool b).setWidth 32

/-- PUSHBIT (R210): shift the buffer left by one bit, OR in `b`, commit. -/
def execPushBit (b : Bool) (s : State) : Host.Outcome State Fault Refusal :=
  .next (writeBuffer (pushWord s.dbuf b) s)

/-- GETPIX (R211): `RDATA <- DBUF[i]`; no commit and no wire event. -/
def execGetPix (i : Nat) (s : State) : Host.Outcome State Fault Refusal :=
  .next (s.withRdata (s.dbuf.getLsbD i))

end Sys2Proof.Machine
end

