-- ==== Sys2Proof/Machine/Values.lean ====
section
/-! DEFINITION. The value commands SETINT, SETFLOAT, SETTEMPC, SETHUM, SETSCORE and SETIP (R204 to R209): each takes its
codes from its own encoder function (the format multiplexer of R104), packs them, writes `DBUF` and commits. -/

namespace Sys2Proof.Machine

/-- SETINT (R204). -/
def execSetInt (v : Int) (pad : Bool) (dots : BitVec 4) (s : State) : Host.Outcome State Fault Refusal :=
  .next (writeBuffer (pack (encodeInteger s.glyphs v pad dots)) s)

/-- SETFLOAT (R205). -/
def execSetFloat (x : BitVec 32) (p : Nat) (pad : Bool) (s : State) : Host.Outcome State Fault Refusal :=
  .next (writeBuffer (pack (encodeFloat s.glyphs s.floatScale x p pad)) s)

/-- SETTEMPC (R206). -/
def execSetTempC (v : Int) (pad : Bool) (s : State) : Host.Outcome State Fault Refusal :=
  .next (writeBuffer (pack (encodeTemperatureC s.glyphs v pad)) s)

/-- SETHUM (R207). -/
def execSetHum (v : Int) (pad : Bool) (s : State) : Host.Outcome State Fault Refusal :=
  .next (writeBuffer (pack (encodeHumidity s.glyphs v pad)) s)

/-- SETSCORE (R208). -/
def execSetScore (h m : Nat) (blink : Bool) (now : Nat) (s : State) : Host.Outcome State Fault Refusal :=
  .next (writeBuffer (pack (encodeScore s.glyphs s.blinkLit h m blink now)) s)

/-- SETIP (R209). -/
def execSetIp (o : Nat) (s : State) : Host.Outcome State Fault Refusal :=
  .next (writeBuffer (pack (encodeIpOctet s.glyphs o)) s)

end Sys2Proof.Machine
end

