-- ==== Sys2Proof/Machine/Dispatch.lean ====
section
/-! DEFINITION. One arm per command: the meaning it runs. -/

namespace Sys2Proof.Machine

def exec (i : Instr) (s : State) : Host.Outcome State Fault Refusal :=
  match i with
  | .setDigits d1 d2 d3 d4 => Sys2Proof.Machine.execSetDigits d1 d2 d3 d4 s
  | .setSeg w => Sys2Proof.Machine.execSetSeg w s
  | .clear => Sys2Proof.Machine.execClear s
  | .setInt v pad dots => Sys2Proof.Machine.execSetInt v pad dots s
  | .setFloat x p pad => Sys2Proof.Machine.execSetFloat x p pad s
  | .setTempC v pad => Sys2Proof.Machine.execSetTempC v pad s
  | .setHum v pad => Sys2Proof.Machine.execSetHum v pad s
  | .setScore h m blink now => Sys2Proof.Machine.execSetScore h m blink now s
  | .setIp o => Sys2Proof.Machine.execSetIp o s
  | .pushBit b => Sys2Proof.Machine.execPushBit b s
  | .getPix i1 => Sys2Proof.Machine.execGetPix i1 s
  | .beginCmd => Sys2Proof.Machine.execBegin s
  | .endCmd => Sys2Proof.Machine.execEnd s

end Sys2Proof.Machine
end

