-- ==== Sys2Proof/Machine/Step.lean ====
section
/-! DEFINITION. One step: the host's next command word is taken from the port, decoded and run to completion (R11, R70, R200). -/

namespace Sys2Proof.Machine

/-- One step. With no command presented QD2 waits, unchanged (R271); a reserved word is refused (R78). -/
def step (s : State) : Host.Outcome State Fault Refusal :=
  match s.nextCommand with
  | none => .next s
  | some (w, s') =>
    match decode w with
    | .command i => exec i s'
    | .reservedOpcode => .refused (.reservedOpcode w)
    | .reservedBits => .refused (.reservedBits w)

/-- `s` with the command word of value `w` presented next; every bit above `nbits` is 0. -/
def State.withFetchWord (s : State) (nbits w : Nat) : State :=
  s.present (BitVec.ofNat 64 (w % 2 ^ nbits))

end Sys2Proof.Machine
end

