-- ==== Sys2Proof/Machine/Assembler.lean ====
section
/-! DEFINITION. The assembler of R80 to R82 over lines already cut into a mnemonic and operands: operand ranges, glyph
names, the conversion of a decimal literal to binary32, and the pseudo-instructions. -/

namespace Sys2Proof.Machine

/-- The names of R102's glyphs. -/
inductive GlyphName where
  | num (d : Fin 10)
  | blank
  | minus
  | dot
  | degree
  | c
  | underDegree
  | underscoreDot
  deriving DecidableEq, Repr

/-- The code a glyph name stands for. -/
def glyphCode (gl : Glyphs) : GlyphName → SegCode
  | .num d => numeralOf gl d.val
  | .blank => gl.blank
  | .minus => gl.minus
  | .dot => gl.dot
  | .degree => gl.degree
  | .c => gl.c
  | .underDegree => gl.underDegree
  | .underscoreDot => gl.underscoreDot

/-- A decimal literal: plus or minus `digits * 10^exponent`. -/
structure Decimal where
  negative : Bool
  digits : Nat
  exponent : Int
  deriving DecidableEq, Repr

/-- The magnitude of a decimal literal. -/
def decimalMagnitude (x : Decimal) : Rat :=
  mkRat (x.digits * 10 ^ x.exponent.toNat : Nat) (10 ^ (-x.exponent).toNat)

/-- The bit pattern of the binary32 datum nearest to a decimal literal, ties to even (R81). A magnitude that rounds to
2^128 or more gives the infinity, and the literal's sign is kept on a zero: DEDUCED (log entry 7). -/
def binary32OfDecimal (x : Decimal) : BitVec 32 :=
  let r := decimalMagnitude x
  let mk := roundMagnitude r.num.natAbs r.den
  let magnitude : Nat := if overflowsBinary32 mk then 0x7F800000 else mk.2 * 2 ^ 23 + mk.1
  BitVec.ofNat 32 ((if x.negative then 2 ^ 31 else 0) + magnitude)

/-- An operand as written. -/
inductive AsmOperand where
  /-- An integer. -/
  | number (n : Int)
  /-- A decimal real literal. -/
  | real (x : Decimal)
  /-- A glyph name, with `+DP` or without. -/
  | glyph (g : GlyphName) (dp : Bool)
  deriving DecidableEq, Repr

/-- A line: its mnemonic and its operands, in order. -/
structure AsmLine where
  mnemonic : String
  operands : List AsmOperand
  deriving DecidableEq, Repr

/-- An operand as an integer. -/
def asInt : AsmOperand → Option Int
  | .number n => some n
  | .real _ => none
  | .glyph _ _ => none

/-- An operand as a natural number below `bound`; "it never wraps one" (R80). -/
def asNat (bound : Nat) : AsmOperand → Option Nat
  | .number n => if 0 ≤ n ∧ n < bound then some n.toNat else none
  | .real _ => none
  | .glyph _ _ => none

/-- An operand that is 0 or 1. -/
def asBit (o : AsmOperand) : Option Bool :=
  (asNat 2 o).map (· == 1)

/-- A segment code: "an 8-bit number or a glyph name, optionally `glyph+DP` (that code with bit 0 set)" (R80). -/
def asSegCode (gl : Glyphs) : AsmOperand → Option SegCode
  | .number n => (asNat 256 (.number n)).map (BitVec.ofNat 8)
  | .real _ => none
  | .glyph g dp => some (if dp then glyphCode gl g ||| 1 else glyphCode gl g)

/-- A decimal literal; an integer is one too. -/
def asBinary32 : AsmOperand → Option (BitVec 32)
  | .number n => some (binary32OfDecimal ⟨decide (n < 0), n.natAbs, 0⟩)
  | .real x => some (binary32OfDecimal x)
  | .glyph _ _ => none

/-- The command a line stands for (R80), the pseudo-instructions of R82 among them. -/
def commandOf (gl : Glyphs) (l : AsmLine) : Option Instr :=
  match l.mnemonic with
  | "SETDIGITS" =>
    match l.operands with
    | [a, b, c, d] => do return .setDigits (← asSegCode gl a) (← asSegCode gl b) (← asSegCode gl c) (← asSegCode gl d)
    | _ => none
  | "SETSEG" =>
    match l.operands with
    | [w] => do return .setSeg (BitVec.ofNat 32 (← asNat (2 ^ 32) w))
    | _ => none
  | "CLEAR" => if l.operands = [] then some .clear else none
  | "SETINT" =>
    match l.operands with
    | [v] => do return .setInt (← asInt v) false 0
    | [v, pad] => do return .setInt (← asInt v) (← asBit pad) 0
    | [v, pad, dots] => do return .setInt (← asInt v) (← asBit pad) (BitVec.ofNat 4 (← asNat 16 dots))
    | _ => none
  | "SETFLOAT" =>
    match l.operands with
    | [x, p] => do return .setFloat (← asBinary32 x) (← asNat 16 p) false
    | [x, p, pad] => do return .setFloat (← asBinary32 x) (← asNat 16 p) (← asBit pad)
    | _ => none
  | "SETTEMPC" =>
    match l.operands with
    | [v] => do return .setTempC (← asInt v) false
    | [v, pad] => do return .setTempC (← asInt v) (← asBit pad)
    | _ => none
  | "SETHUM" =>
    match l.operands with
    | [v] => do return .setHum (← asInt v) false
    | [v, pad] => do return .setHum (← asInt v) (← asBit pad)
    | _ => none
  | "SETSCORE" =>
    match l.operands with
    | [h, m] => do return .setScore (← asNat 256 h) (← asNat 256 m) false 0
    | [h, m, blink, now] => do
      return .setScore (← asNat 256 h) (← asNat 256 m) (← asBit blink) (← asNat (2 ^ 32) now)
    | _ => none
  | "SETIP" =>
    match l.operands with
    | [o] => do return .setIp (← asNat 256 o)
    | _ => none
  | "PUSHBIT" =>
    match l.operands with
    | [b] => do return .pushBit (← asBit b)
    | _ => none
  | "GETPIX" =>
    match l.operands with
    | [i] => do return .getPix (← asNat 32 i)
    | _ => none
  | "BEGIN" => if l.operands = [] then some .beginCmd else none
  | "END" => if l.operands = [] then some .endCmd else none
  | "BLANKALL" => if l.operands = [] then some (.setDigits gl.blank gl.blank gl.blank gl.blank) else none
  | _ => none

/-- Assemble one line: "An assembler refuses an operand outside the stated range" (R80). -/
def assemble (gl : Glyphs) (l : AsmLine) : Option CmdWord := do
  let i ← commandOf gl l
  if WellFormed i then some (encode i) else none

end Sys2Proof.Machine
end

