-- ==== Sys2Proof/Machine/Receiver.lean ====
section
/-! DEFINITION. The reference receiver of R170, outside the block: what a module on the three pins sees of a list of wire
events, and what it then shows. It is no part of State, and nothing QD2 does reads it. -/

namespace Sys2Proof.Machine

/-- What the pins tell a module: a data bit on a rising edge of `CLK`, or a rising edge of `STB`. -/
inductive Signal where
  | bit (v : Bool)
  | strobe
  deriving DecidableEq, Repr

/-- Pin `l` rises from `s` to `s'`: driven low before and driven high after (R170). -/
def rises (s s' : State) (l : Line) : Bool :=
  s.pin l == some false && s'.pin l == some true

/-- What a receiver reads on pin `l`. An undriven pin reads what the board gives it, any value (R154, K1.4). -/
def pinReads (board : Nat → Line → Bool) (s : State) (l : Line) : Bool :=
  match s.pin l with
  | some v => v
  | none => board s.trace.length l

/-- The signals of one event issued in state `s` (R170); a serial byte is its 8 bits, most significant first. -/
def signalsOf (board : Nat → Line → Bool) (s : State) (e : Event) : List Signal :=
  match e with
  | .spiByte b => (bitsDown b 8).map .bit
  | .dir _ _ | .lvl _ _ | .spiInit =>
    let s' := emit e s
    (if rises s s' .clk then [.bit (pinReads board s' .data)] else []) ++ (if rises s s' .stb then [.strobe] else [])

/-- The signals of a list of events issued from `s`, in order (R59). -/
def observe (board : Nat → Line → Bool) : List Event → State → List Signal
  | [], _ => []
  | e :: es, s => signalsOf board s e ++ observe board es (emit e s)

/-- The discrete events a serial byte is equivalent to, as seen by a receiver (R153): `DATA` at `b[j]`, `CLK` up, `CLK` down. -/
def spiByteWave (b : BitVec 8) : List Event :=
  (bitsDown b 8).flatMap bitEvents

/-- The reference receiver: a 32-bit shift register and a 32-bit latch (R170). -/
structure Receiver where
  sr : Word
  latch : Word
  deriving DecidableEq, Repr

/-- The receiver's reaction to one signal (R170). -/
def react (r : Receiver) : Signal → Receiver
  | .bit v => { r with sr := (r.sr <<< 1) ||| (BitVec.ofBool v).setWidth 32 }
  | .strobe => { r with latch := r.sr }

/-- The receiver after the events `es` issued from `s`. -/
def receive (board : Nat → Line → Bool) (es : List Event) (s : State) (r : Receiver) : Receiver :=
  (observe board es s).foldl react r

/-- The lit segment bits: `LIT = LATCH ^ INV` (R170). -/
def lit (pol : Polarity) (r : Receiver) : Word :=
  r.latch ^^^ inv pol

end Sys2Proof.Machine
end

