-- ==== Sys2Proof/Machine/Timing.lean ====
section
/-! DEFINITION. The cost measures of R280 and the parameters `T_PULSE_MIN` and `SPI_CLOCK_HZ` (R6, R275), taken as
arguments. No meaning and no step uses them. -/

namespace Sys2Proof.Machine

/-- How many line requests (`LVL` or `DIR`) a list of events makes; each holds for at least `T_PULSE_MIN` (R275). -/
def lineRequests : List Event → Nat
  | [] => 0
  | .dir _ _ :: es => lineRequests es + 1
  | .lvl _ _ :: es => lineRequests es + 1
  | .spiInit :: es => lineRequests es
  | .spiByte _ :: es => lineRequests es

/-- How many serial bits a list of events transfers. -/
def serialBits : List Event → Nat
  | [] => 0
  | .dir _ _ :: es => serialBits es
  | .lvl _ _ :: es => serialBits es
  | .spiInit :: es => serialBits es
  | .spiByte _ :: es => serialBits es + 8

/-- The wall-clock estimate of R280, with `T_PULSE_MIN` and the serial bit time (one period of `SPI_CLOCK_HZ`) given. -/
def wallClock (tPulseMin bitTime : Nat) (es : List Event) : Nat :=
  lineRequests es * tPulseMin + serialBits es * bitTime

end Sys2Proof.Machine
end

