-- ==== Sys2Proof/Safety.lean ====
section
/-! DEFINITION. The terms in which claims are made: what a good state is, and what the rules say of a result, each written
apart from the meanings' own functions. -/

namespace Sys2Proof

open Sys2Proof.Machine

/-! ### Encoding -/

/-- A reserved command word (R78): opcode 0x0, 0xE or 0xF, or a reserved-zero bit of its row that is 1. -/
def Reserved (w : CmdWord) : Prop :=
  match (w >>> 60).toNat with
  | 0x1 | 0x2 => w.extractLsb' 32 28 ≠ 0
  | 0x3 | 0xC | 0xD => w.extractLsb' 0 60 ≠ 0
  | 0x4 | 0x5 => w.extractLsb' 37 23 ≠ 0
  | 0x6 | 0x7 => w.extractLsb' 37 23 ≠ 0 ∨ w.extractLsb' 32 4 ≠ 0
  | 0x8 => w.extractLsb' 49 11 ≠ 0
  | 0x9 => w.extractLsb' 8 52 ≠ 0
  | 0xA => w.extractLsb' 1 59 ≠ 0
  | 0xB => w.extractLsb' 5 55 ≠ 0
  | _ => True

/-! ### Invariants of the state -/

/-- The line registers agree with the lifecycle (R26, R28, R164, R166, R169): claimed lines are driven, with `STB` and `CLK`
low, and the serial engine runs exactly in burst mode; unclaimed lines are undriven at level 0 with the engine off. -/
structure LinesFollowClaim (s : State) : Prop where
  claimedStb : s.claimed = true → s.stb = ⟨.output, false⟩
  claimedClk : s.claimed = true → s.clk = ⟨.output, false⟩
  claimedData : s.claimed = true → s.data.dir = .output
  claimedSpi : s.claimed = true → s.spiEn = decide (s.mode = .burst)
  freeLines : s.claimed = false → ∀ l, s.line l = ⟨.input, false⟩
  freeSpi : s.claimed = false → s.spiEn = false

/-- The line registers after the events of `es`, from lines that are all inputs at level 0 and with `n` free values drawn. -/
def replay (n : Nat) (es : List Event) : State :=
  es.foldl (fun t e => applyEvent e t) { State.construct .bitbang with drawn := n }

/-- The line registers are what the wire events of `TRACE` leave, whatever free values have been drawn: they "are written
only by wire events" (R28) and each event takes effect at once (R151, R59). -/
def LinesReplayTrace (s : State) : Prop :=
  ∃ n, (∀ l, s.line l = (replay n s.trace).line l) ∧ s.drawn = (replay n s.trace).drawn

/-! ### What a commit leaves -/

/-- The word on the wire (R160): inverted for a common-anode module. -/
def wireWord (pol : Polarity) (w : Word) : Word :=
  match pol with
  | .ca => ~~~w
  | .cc => w

/-- The events that send `w` (R156, R157). -/
def commitTrace (mode : Mode) (pol : Polarity) (w : Word) : List Event :=
  let x := wireWord pol w
  match mode with
  | .burst =>
    [.lvl .stb false, .spiByte (x.extractLsb' 24 8), .spiByte (x.extractLsb' 16 8), .spiByte (x.extractLsb' 8 8),
     .spiByte (x.extractLsb' 0 8), .lvl .stb true, .lvl .stb false]
  | .bitbang =>
    [.lvl .clk false, .lvl .stb false]
      ++ (List.range 32).flatMap (fun k => [.lvl .data (x.getLsbD (31 - k)), .lvl .clk true, .lvl .clk false])
      ++ [.lvl .stb true, .lvl .stb false]

/-- `t` follows from `s` by a buffer write and its commit: the events issued and the lines they leave (R155 to R157, R169),
and that nothing but `DBUF`, `TRACE` and line levels changed. The value of `DBUF` itself is said apart. -/
structure Committed (s t : State) : Prop where
  trace : t.trace = s.trace ++ (if s.claimed then commitTrace s.mode s.pol t.dbuf else [])
  unclaimedLines : s.claimed = false → ∀ l, t.line l = s.line l
  strobeLow : s.claimed = true → t.stb.lvl = false
  clockLow : s.claimed = true → t.clk.lvl = false
  dataLast : s.claimed = true → s.mode = .bitbang → t.data.lvl = (wireWord s.pol t.dbuf).getLsbD 0
  directions : ∀ l, (t.line l).dir = (s.line l).dir
  mode : t.mode = s.mode
  pol : t.pol = s.pol
  glyphs : t.glyphs = s.glyphs
  claimed : t.claimed = s.claimed
  spiEn : t.spiEn = s.spiEn
  rdata : t.rdata = s.rdata
  floatScale : t.floatScale = s.floatScale
  blinkLit : t.blinkLit = s.blinkLit
  port : t.port = s.port

/-- The commands that write `DBUF` (R200). -/
def writesBuffer : Instr → Bool
  | .setDigits _ _ _ _ | .setSeg _ | .clear | .setInt _ _ _ | .setFloat _ _ _ | .setTempC _ _ | .setHum _ _
  | .setScore _ _ _ _ | .setIp _ | .pushBit _ => true
  | .getPix _ | .beginCmd | .endCmd => false

/-- The code of digit `n` in a buffer word, n = 1 leftmost (R21). -/
def digitOf (w : Word) (n : Nat) : SegCode :=
  w.extractLsb' (8 * (4 - n)) 8

/-! ### What the field formatter shows -/

/-- Place `j` of a field, counted from 0 at the right, holds a digit: always place 0, else when padding or when the
magnitude reaches `10^j` (R105, R106). -/
def placeWritten (m : Nat) (pad : Bool) (j : Nat) : Prop :=
  pad = true ∨ j = 0 ∨ 10 ^ j ≤ m

/-- The minus sign of a `W`-digit field falls on place `j`: the first place left of the digits, or the leftmost place when
the digits fill the field (R107). -/
def minusPlace (m : Nat) (pad : Bool) (W j : Nat) : Prop :=
  (¬ placeWritten m pad j ∧ placeWritten m pad (j - 1)) ∨ (j + 1 = W ∧ placeWritten m pad j)

/-- The code a field of `W` digits shows on place `j` for the integer `v` (R105 to R108). -/
def FieldShows (gl : Glyphs) (v : Int) (W : Nat) (pad : Bool) (j : Nat) (code : SegCode) : Prop :=
  (v < 0 ∧ minusPlace v.natAbs pad W j → code = gl.minus) ∧
  (¬ (v < 0 ∧ minusPlace v.natAbs pad W j) → placeWritten v.natAbs pad j → code = numeralOf gl (v.natAbs / 10 ^ j)) ∧
  (¬ (v < 0 ∧ minusPlace v.natAbs pad W j) → ¬ placeWritten v.natAbs pad j → code = gl.blank)

/-- The code with the decimal point ORed in when `lit`. -/
def dotted (gl : Glyphs) (lit : Bool) (code : SegCode) : SegCode :=
  code ||| (if lit then gl.dot else 0)

/-! ### Truncation -/

/-- `n` is `t` rounded toward zero (R8). -/
def TruncationOf (n : Int) (t : Rat) : Prop :=
  (0 ≤ t → (n : Rat) ≤ t ∧ t < (n : Rat) + 1) ∧ (t < 0 → t ≤ (n : Rat) ∧ (n : Rat) - 1 < t)

/-! ### Assembler operands -/

/-- A one-bit operand as written: 0 or 1 (R80). -/
def bitOperand (b : Bool) : AsmOperand :=
  .number (if b then 1 else 0)

/-- The operands of SETDIGITS and the segment codes they write (R80): an 8-bit number, a glyph name of R102, or a glyph
name with `+DP`, "that code with bit 0 set". -/
inductive WritesCode (gl : Glyphs) : AsmOperand → SegCode → Prop where
  | number (n : Nat) (h : n < 256) : WritesCode gl (.number n) (BitVec.ofNat 8 n)
  | num (d : Fin 10) : WritesCode gl (.glyph (.num d) false) gl.numeral[d]
  | blank : WritesCode gl (.glyph .blank false) gl.blank
  | minus : WritesCode gl (.glyph .minus false) gl.minus
  | dot : WritesCode gl (.glyph .dot false) gl.dot
  | degree : WritesCode gl (.glyph .degree false) gl.degree
  | c : WritesCode gl (.glyph .c false) gl.c
  | underDegree : WritesCode gl (.glyph .underDegree false) gl.underDegree
  | underscoreDot : WritesCode gl (.glyph .underscoreDot false) gl.underscoreDot
  | plusDP (g : GlyphName) (code : SegCode) (h : WritesCode gl (.glyph g false) code) :
      WritesCode gl (.glyph g true) (code ||| 0x01)

/-! ### Reading a display back -/

/-- The glyphs a number is made of are told apart. -/
def DistinctGlyphs (gl : Glyphs) : Prop :=
  (gl.blank :: gl.minus :: gl.numeral.toList).Nodup

/-- The digit whose numeral a code is. -/
def digitRead (gl : Glyphs) (code : SegCode) : Option Nat :=
  (List.range 10).find? (fun d => numeralOf gl d == code)

/-- The number a run of numerals spells, after the digits `acc`. -/
def numeralsRead (gl : Glyphs) (acc : Nat) : List SegCode → Option Nat
  | [] => some acc
  | code :: rest =>
    match digitRead gl code with
    | some d => numeralsRead gl (acc * 10 + d) rest
    | none => none

/-- The integer a display spells: blanks, then a minus sign or none, then at least one numeral. -/
def numberRead (gl : Glyphs) : List SegCode → Option Int
  | [] => none
  | code :: rest =>
    if code = gl.blank then numberRead gl rest
    else if code = gl.minus then
      if rest = [] then none else (numeralsRead gl 0 rest).map (fun n => -(n : Int))
    else (numeralsRead gl 0 (code :: rest)).map (fun n => (n : Int))

end Sys2Proof
end

