-- ==== Sys2Proof/Certificates/Slice0/Obligations.lean ====
section
/-! DEFINITION. The statements for the provers, from the numbered rules of the spec. A statement about a buffer-writing
command says the code of each digit, and `Committed` says the rest: the events of its commit, the lines they leave, and
the frame. Every statement holds for every mode, polarity, glyph table, float reading and blink phase. -/

open Sys2Proof Sys2Proof.Machine

/-! ### Encoding and decoding -/

/-- No bit of an encoding is dropped: R72 to R77 taken together. -/
def Obligations.DecodeOfEncodeGivesTheCommand : Prop :=
  ∀ i : Instr, WellFormed i = true → decode (encode i) = .command i

/-- A word has one meaning: the command it decodes to has that word as its encoding, with operands in range. -/
def Obligations.EncodeOfDecodeGivesTheWord : Prop :=
  ∀ (w : CmdWord) (i : Instr), decode w = .command i → encode i = w ∧ WellFormed i = true

/-- R77: "a word is the command when `CMD & mask = match`", for the masks and matches of its 13 rows, no two of which
match one word. -/
def Obligations.CommandWordsAreThoseOfTheTable : Prop :=
  let rows : List (CmdWord × CmdWord) :=
    [(0xFFFFFFFF00000000, 0x1000000000000000), (0xFFFFFFFF00000000, 0x2000000000000000),
     (0xFFFFFFFFFFFFFFFF, 0x3000000000000000), (0xFFFFFFE000000000, 0x4000000000000000),
     (0xFFFFFFE000000000, 0x5000000000000000), (0xFFFFFFEF00000000, 0x6000000000000000),
     (0xFFFFFFEF00000000, 0x7000000000000000), (0xFFFE000000000000, 0x8000000000000000),
     (0xFFFFFFFFFFFFFF00, 0x9000000000000000), (0xFFFFFFFFFFFFFFFE, 0xA000000000000000),
     (0xFFFFFFFFFFFFFFE0, 0xB000000000000000), (0xFFFFFFFFFFFFFFFF, 0xC000000000000000),
     (0xFFFFFFFFFFFFFFFF, 0xD000000000000000)]
  ∀ w : CmdWord,
    ((∃ i, decode w = .command i) ↔ ∃ r ∈ rows, w &&& r.1 = r.2) ∧
    ∀ r ∈ rows, ∀ q ∈ rows, w &&& r.1 = r.2 → w &&& q.1 = q.2 → r = q

/-- R78 and R242: a step refuses a reserved word and runs every other word as a command. The rules ask for a refusal; its
split into two names, `reservedOpcode` and `reservedBits`, is the model's choice (log entry 8). -/
def Obligations.ReservedWordsAreRefused : Prop :=
  ∀ (s : State) (w : CmdWord) (rest : List CmdWord), s.port = w :: rest →
    ((w >>> 60).toNat = 0x0 ∨ (w >>> 60).toNat = 0xE ∨ (w >>> 60).toNat = 0xF → step s = .refused (.reservedOpcode w)) ∧
    (Reserved w → ¬ ((w >>> 60).toNat = 0x0 ∨ (w >>> 60).toNat = 0xE ∨ (w >>> 60).toNat = 0xF) →
      step s = .refused (.reservedBits w)) ∧
    (¬ Reserved w → ∃ t, step s = .next t ∧ t.port = rest)

/-- Words written out bit by bit from the formats of R72 to R76, one of each format and more. -/
def Obligations.WrittenOutWordsDecode : Prop :=
  decode 0b0001000000000000000000000000000011111100011000001101101011110010
      = .command (.setDigits 0b11111100 0b01100000 0b11011010 0b11110010) ∧
  decode 0b0011000000000000000000000000000000000000000000000000000000000000 = .command .clear ∧
  decode 0b0100000000000000000000000001010011111111111111111111111111111011
      = .command (.setInt (-5) true 0b0100) ∧
  decode 0b0101000000000000000000000000001001000000010010010000111111010000
      = .command (.setFloat 0b01000000010010010000111111010000 2 false) ∧
  decode 0b1000000000000001001000100000110011111111111111111111111011010111
      = .command (.setScore 12 34 true 4294966999) ∧
  decode 0b1011000000000000000000000000000000000000000000000000000000011000 = .command (.getPix 24)

/-! ### The step -/

/-- A step takes the host's next word, decodes it and runs the command to completion; with no word presented it waits. -/
def Obligations.StepRunsTheDecodedCommand : Prop :=
  (∀ (s : State) (w : CmdWord) (rest : List CmdWord) (i : Instr), s.port = w :: rest → decode w = .command i →
    step s = exec i { s with port := rest }) ∧
  (∀ s : State, s.port = [] → step s = .next s)

/-- R273: every finite sequence of command words none of which is reserved runs to its end, one step a word. -/
def Obligations.FiniteSequencesRunToTheirEnd : Prop :=
  ∀ s : State, (∀ w ∈ s.port, ¬ Reserved w) →
    ∃ t : State, Sys2Proof.core.run s.port.length s = .next t ∧ t.port = []

/-! ### Reset -/

/-- R270: reset fixes `MODE` and `POL` from the construction arguments, `POL = CA` if none is given, and sets every other
state element to its reset value. The parameters left at their defaults are those of R6. -/
def Obligations.ConstructionSetsTheResetValues : Prop :=
  ∀ (mode : Mode) (pol : Polarity),
    (State.construct mode pol).mode = mode ∧ (State.construct mode pol).pol = pol ∧
    (State.construct mode).pol = .ca ∧
    (State.construct mode pol).dbuf = 0x00000000 ∧ (State.construct mode pol).claimed = false ∧
    (State.construct mode pol).spiEn = false ∧
    (∀ l, (State.construct mode pol).line l = ⟨.input, false⟩) ∧
    (State.construct mode pol).rdata = false ∧ (State.construct mode pol).trace = [] ∧
    (State.construct mode pol).glyphs = glyphRom

/-! ### The buffer commands -/

/-- R201, SETDIGITS. -/
def Obligations.SetDigitsStoresFourCodes : Prop :=
  (∀ (s : State) (d1 d2 d3 d4 : SegCode),
    ∃ t, exec (.setDigits d1 d2 d3 d4) s = .next t ∧
      digitOf t.dbuf 1 = d1 ∧ digitOf t.dbuf 2 = d2 ∧ digitOf t.dbuf 3 = d3 ∧ digitOf t.dbuf 4 = d4 ∧
      Committed s t) ∧
  ∀ w : CmdWord, w &&& 0xFFFFFFFF00000000 = 0x1000000000000000 →
    decode w = .command (.setDigits (w.extractLsb' 24 8) (w.extractLsb' 16 8) (w.extractLsb' 8 8) (w.extractLsb' 0 8))

/-- SETSEG. That GETPIX then reads every bit back is an inference the spec marks as its own ("derived: from this rule and
rule R211"). -/
def Obligations.SetSegStoresTheWord : Prop :=
  (∀ (s : State) (w : Word),
    ∃ t, exec (.setSeg w) s = .next t ∧ t.dbuf = w ∧ Committed s t ∧
      ∀ i < 32, ∃ u, exec (.getPix i) t = .next u ∧ u.rdata = w.getLsbD i) ∧
  ∀ w : CmdWord, w &&& 0xFFFFFFFF00000000 = 0x2000000000000000 → decode w = .command (.setSeg (w.extractLsb' 0 32))

/-- R203, CLEAR: four blanks, which is 0 with the default ROM; all that SETDIGITS of four blanks does. -/
def Obligations.ClearBlanksTheDisplay : Prop :=
  (∀ s : State,
    ∃ t, exec .clear s = .next t ∧ (∀ n, 1 ≤ n → n ≤ 4 → digitOf t.dbuf n = s.glyphs.blank) ∧ Committed s t ∧
      (s.glyphs = glyphRom → t.dbuf = 0x00000000) ∧
      exec (.setDigits s.glyphs.blank s.glyphs.blank s.glyphs.blank s.glyphs.blank) s = .next t) ∧
  ∀ w : CmdWord, w &&& 0xFFFFFFFFFFFFFFFF = 0x3000000000000000 → decode w = .command .clear

/-! ### The value commands -/

/-- R204, SETINT: digit `k + 1` shows place `3 - k` of the four-digit field, with its dot when mask bit `3 - k` is 1. -/
def Obligations.SetIntShowsTheInteger : Prop :=
  (∀ (s : State) (v : Int) (pad : Bool) (dots : BitVec 4),
    ∃ t, exec (.setInt v pad dots) s = .next t ∧ Committed s t ∧
      ∀ k < 4, ∃ code, FieldShows s.glyphs v 4 pad (3 - k) code ∧
        digitOf t.dbuf (k + 1) = dotted s.glyphs (dots.getLsbD (3 - k)) code) ∧
  ∀ w : CmdWord, w &&& 0xFFFFFFE000000000 = 0x4000000000000000 →
    decode w = .command (.setInt (w.extractLsb' 0 32).toInt (w.getLsbD 36) (w.extractLsb' 32 4))

/-- R205, SETFLOAT: the integer that `FLOAT_SCALE` gives, with the dot on index `3 - p` when p is at most 3 and no dot from
p = 4 on; a NaN or an infinity shows 0 under the default reading. -/
def Obligations.SetFloatShowsTheScaledInteger : Prop :=
  (∀ (s : State) (x : BitVec 32) (p : Nat) (pad : Bool),
    ∃ t, exec (.setFloat x p pad) s = .next t ∧ Committed s t ∧
      ∀ k < 4, ∃ code, FieldShows s.glyphs (floatScaleOf s.floatScale x p) 4 pad (3 - k) code ∧
        digitOf t.dbuf (k + 1) = dotted s.glyphs (decide (k + p = 3)) code) ∧
  (∀ (x : BitVec 32) (p : Nat), x.extractLsb' 23 8 = 0xFF → floatScaleOf .single x p = 0) ∧
  ∀ w : CmdWord, w &&& 0xFFFFFFE000000000 = 0x5000000000000000 →
    decode w = .command (.setFloat (w.extractLsb' 0 32) (w.extractLsb' 32 4).toNat (w.getLsbD 36))

/-- R206, SETTEMPC: a two-digit field, then DEGREE and C. -/
def Obligations.SetTempCShowsTheTemperature : Prop :=
  (∀ (s : State) (v : Int) (pad : Bool),
    ∃ t, exec (.setTempC v pad) s = .next t ∧ Committed s t ∧
      FieldShows s.glyphs v 2 pad 1 (digitOf t.dbuf 1) ∧ FieldShows s.glyphs v 2 pad 0 (digitOf t.dbuf 2) ∧
      digitOf t.dbuf 3 = s.glyphs.degree ∧ digitOf t.dbuf 4 = s.glyphs.c) ∧
  ∀ w : CmdWord, w &&& 0xFFFFFFEF00000000 = 0x6000000000000000 →
    decode w = .command (.setTempC (w.extractLsb' 0 32).toInt (w.getLsbD 36))

/-- R207, SETHUM: a two-digit field, then DEGREE and UNDER_DEGREE. -/
def Obligations.SetHumShowsTheHumidity : Prop :=
  (∀ (s : State) (v : Int) (pad : Bool),
    ∃ t, exec (.setHum v pad) s = .next t ∧ Committed s t ∧
      FieldShows s.glyphs v 2 pad 1 (digitOf t.dbuf 1) ∧ FieldShows s.glyphs v 2 pad 0 (digitOf t.dbuf 2) ∧
      digitOf t.dbuf 3 = s.glyphs.degree ∧ digitOf t.dbuf 4 = s.glyphs.underDegree) ∧
  ∀ w : CmdWord, w &&& 0xFFFFFFEF00000000 = 0x7000000000000000 →
    decode w = .command (.setHum (w.extractLsb' 0 32).toInt (w.getLsbD 36))

/-- SETSCORE: two digits of each number, the colon on digit 2 lit when not blinking, or in the lit half-period. The colon
blinks only as often as the host reissues SETSCORE: with no command presented nothing changes, which is the model's
reading of a waiting block (log entry 2). -/
def Obligations.SetScoreShowsTheTime : Prop :=
  (∀ (s : State) (h m : Nat) (blink : Bool) (now : Nat),
    ∃ t, exec (.setScore h m blink now) s = .next t ∧ Committed s t ∧
      digitOf t.dbuf 1 = numeralOf s.glyphs (h / 10 % 10) ∧
      digitOf t.dbuf 2 = dotted s.glyphs
        (decide (blink = false ∨ now / 500 % 2 = (match s.blinkLit with | .even => 0 | .odd => 1)))
        (numeralOf s.glyphs (h % 10)) ∧
      digitOf t.dbuf 3 = numeralOf s.glyphs (m / 10 % 10) ∧
      digitOf t.dbuf 4 = numeralOf s.glyphs (m % 10)) ∧
  (∀ s : State, s.port = [] → step s = .next s) ∧
  ∀ w : CmdWord, w &&& 0xFFFE000000000000 = 0x8000000000000000 →
    decode w = .command (.setScore (w.extractLsb' 32 8).toNat (w.extractLsb' 40 8).toNat (w.getLsbD 48)
      (w.extractLsb' 0 32).toNat)

/-- R209, SETIP: UNDERSCORE_DOT, then the octet in a three-digit field, blank-filled, with no other dot. -/
def Obligations.SetIpShowsTheOctet : Prop :=
  (∀ (s : State) (o : Nat),
    ∃ t, exec (.setIp o) s = .next t ∧ Committed s t ∧
      digitOf t.dbuf 1 = s.glyphs.underscoreDot ∧
      ∀ k < 3, FieldShows s.glyphs o 3 false (2 - k) (digitOf t.dbuf (k + 2))) ∧
  ∀ w : CmdWord, w &&& 0xFFFFFFFFFFFFFF00 = 0x9000000000000000 →
    decode w = .command (.setIp (w.extractLsb' 0 8).toNat)

/-! ### The raw bit commands -/

/-- R210, PUSHBIT: every bit moves up by one, the old `DBUF[31]` is lost and `b` becomes `DBUF[0]`. -/
def Obligations.PushBitShiftsTheBuffer : Prop :=
  (∀ (s : State) (b : Bool),
    ∃ t, exec (.pushBit b) s = .next t ∧ Committed s t ∧
      t.dbuf.getLsbD 0 = b ∧ ∀ i < 31, t.dbuf.getLsbD (i + 1) = s.dbuf.getLsbD i) ∧
  ∀ w : CmdWord, w &&& 0xFFFFFFFFFFFFFFFE = 0xA000000000000000 → decode w = .command (.pushBit (w.getLsbD 0))

/-- PUSHBIT's corner case, an inference the spec marks as its own: 32 PUSHBIT commands replace the whole buffer, the first
pushed bit ending in `DBUF[31]`, and each commits its own buffer: after push `k + 1` that is the old buffer moved up by
`k + 1` bits with the first `k + 1` pushed bits below it. -/
def Obligations.ThirtyTwoPushesReplaceTheBuffer : Prop :=
  ∀ (s : State) (w : Word),
    ∃ t, Sys2Proof.core.run 32
        { s with port := (List.range 32).map (fun k => encode (.pushBit (w.getLsbD (31 - k)))) } = .next t ∧
      t.dbuf = w ∧
      t.trace = s.trace ++
        (if s.claimed then
          (List.range 32).flatMap
            (fun k => commitTrace s.mode s.pol ((s.dbuf <<< (k + 1)) ||| (w >>> (31 - k))))
        else [])

/-- R211, GETPIX: one bit of `DBUF` into `RDATA` and nothing else, no commit and no wire event; the index of bit `k` of
digit `n` is `8 * (4 - n) + k` (R53). -/
def Obligations.GetPixReadsOneBit : Prop :=
  (∀ (s : State) (i : Nat), i < 32 → exec (.getPix i) s = .next { s with rdata := s.dbuf.getLsbD i }) ∧
  (∀ (s : State) (n k : Nat), 1 ≤ n → n ≤ 4 → k < 8 →
    ∃ t, exec (.getPix (8 * (4 - n) + k)) s = .next t ∧ t.rdata = (digitOf s.dbuf n).getLsbD k) ∧
  ∀ w : CmdWord, w &&& 0xFFFFFFFFFFFFFFE0 = 0xB000000000000000 →
    decode w = .command (.getPix (w.extractLsb' 0 5).toNat)

/-! ### The lifecycle commands -/

/-- R212 and R164, BEGIN, whatever `CLAIMED` was: the claim's events, the lines driven low, and nothing else changed. -/
def Obligations.BeginClaimsTheLines : Prop :=
  (∀ s : State,
    ∃ t, exec .beginCmd s = .next t ∧
      t.trace = s.trace ++ (match s.mode with
        | .bitbang =>
          [.dir .data .output, .dir .clk .output, .lvl .data false, .lvl .clk false, .dir .stb .output, .lvl .stb false]
        | .burst => [.spiInit, .dir .stb .output, .lvl .stb false]) ∧
      t.claimed = true ∧ (∀ l, t.line l = ⟨.output, false⟩) ∧ (∀ l, t.pin l = some false) ∧
      t.spiEn = (match s.mode with | .bitbang => s.spiEn | .burst => true) ∧
      t.dbuf = s.dbuf ∧ t.rdata = s.rdata ∧ t.mode = s.mode ∧ t.pol = s.pol ∧ t.glyphs = s.glyphs ∧
      t.floatScale = s.floatScale ∧ t.blinkLit = s.blinkLit ∧ t.port = s.port) ∧
  ∀ w : CmdWord, w &&& 0xFFFFFFFFFFFFFFFF = 0xC000000000000000 → decode w = .command .beginCmd

/-- END, whatever `CLAIMED` was: the release's six events in both modes, the lines undriven at level 0, the serial engine
off, and nothing else changed. That `SPI_EN` is cleared in bit-banged mode too is the model's reading of the release's
pseudocode (log entry 6). -/
def Obligations.EndReleasesTheLines : Prop :=
  (∀ s : State,
    ∃ t, exec .endCmd s = .next t ∧
      t.trace = s.trace ++ [.lvl .stb false, .lvl .data false, .lvl .clk false, .dir .stb .input, .dir .data .input,
        .dir .clk .input] ∧
      t.claimed = false ∧ (∀ l, t.line l = ⟨.input, false⟩) ∧ (∀ l, t.pin l = none) ∧ t.spiEn = false ∧
      t.dbuf = s.dbuf ∧ t.rdata = s.rdata ∧ t.mode = s.mode ∧ t.pol = s.pol ∧ t.glyphs = s.glyphs ∧
      t.floatScale = s.floatScale ∧ t.blinkLit = s.blinkLit ∧ t.port = s.port) ∧
  ∀ w : CmdWord, w &&& 0xFFFFFFFFFFFFFFFF = 0xD000000000000000 → decode w = .command .endCmd

/-! ### Wire events and the transport -/

/-- `emit e` appends `e` to `TRACE` and applies its effect; a level requested again changes only `TRACE`. After a serial
byte `CLK` is low and the level of `DATA` is some value, of which nothing is said; the counter `drawn` of such values is
the model's choice (log entry 3). -/
def Obligations.EmitAppendsAndApplies : Prop :=
  ∀ s : State,
    (∀ (l : Line) (d : Dir), emit (.dir l d) s =
      { (s.withLine l ⟨d, (s.line l).lvl⟩) with trace := s.trace ++ [.dir l d] }) ∧
    (∀ (l : Line) (v : Bool), emit (.lvl l v) s =
      { (s.withLine l ⟨(s.line l).dir, v⟩) with trace := s.trace ++ [.lvl l v] }) ∧
    (∀ (l : Line) (v : Bool), (s.line l).lvl = v → emit (.lvl l v) s = { s with trace := s.trace ++ [.lvl l v] }) ∧
    emit .spiInit s =
      { s with trace := s.trace ++ [.spiInit], spiEn := true, data := ⟨.output, false⟩, clk := ⟨.output, false⟩ } ∧
    ∀ b : BitVec 8, ∃ v : Bool, emit (.spiByte b) s =
      { s with trace := s.trace ++ [.spiByte b], data := ⟨s.data.dir, v⟩, clk := ⟨s.clk.dir, false⟩, drawn := s.drawn + 1 }

/-- R153: a serial byte is, to a receiver on driven lines with the clock idle, its eight bits clocked out MSB-first; it
leaves `CLK` low. Nothing is said of the level of `DATA` after it, which the rule leaves unspecified. -/
def Obligations.SerialByteEqualsItsClockedBits : Prop :=
  ∀ (board : Nat → Line → Bool) (s : State) (b : BitVec 8),
    s.clk = ⟨.output, false⟩ → s.data.dir = .output →
      signalsOf board s (.spiByte b) = observe board (spiByteWave b) s ∧
      observe board (spiByteWave b) s = (List.range 8).map (fun j => .bit (b.getLsbD (7 - j))) ∧
      (emit (.spiByte b) s).clk.lvl = false

/-- R168: the number of events of each operation. -/
def Obligations.EventCountsOfEachOperation : Prop :=
  ∀ s : State,
    (∀ i, writesBuffer i = true → ∃ t, exec i s = .next t ∧
      t.trace.length = s.trace.length +
        (if s.claimed then (match s.mode with | .bitbang => 100 | .burst => 7) else 0)) ∧
    (∃ t, exec .beginCmd s = .next t ∧
      t.trace.length = s.trace.length + (match s.mode with | .bitbang => 6 | .burst => 3)) ∧
    (∃ t, exec .endCmd s = .next t ∧ t.trace.length = s.trace.length + 6)

/-- R161, with R52 and R160: whatever the mode, a commit on claimed lines presents the 32 bits of `DBUF ^ INV`, bit 31
first, each before a rising edge of `CLK`, and then one strobe. -/
def Obligations.BothModesPresentTheSameBits : Prop :=
  ∀ (i : Instr) (s : State) (board : Nat → Line → Bool),
    writesBuffer i = true → s.claimed = true → LinesFollowClaim s →
      ∃ t es, exec i s = .next t ∧ t.trace = s.trace ++ es ∧
        observe board es s = (List.range 32).map (fun k => .bit ((t.dbuf ^^^ inv s.pol).getLsbD (31 - k))) ++ [.strobe]

/-- R171: after every buffer-writing command on claimed lines, in either mode and polarity, the reference receiver has
latched `DBUF ^ INV` and lights exactly `DBUF`, whatever it held before. -/
def Obligations.TheModuleShowsTheBuffer : Prop :=
  ∀ (i : Instr) (s : State) (board : Nat → Line → Bool) (r : Receiver),
    writesBuffer i = true → s.claimed = true → LinesFollowClaim s →
      ∃ t es, exec i s = .next t ∧ t.trace = s.trace ++ es ∧
        (receive board es s r).latch = wireWord s.pol t.dbuf ∧ lit s.pol (receive board es s r) = t.dbuf

/-- R55 and the source's property S13: two buffer-writing commands in a row that leave the same `DBUF` issue the same
events. -/
def Obligations.EqualBuffersCommitEqualEvents : Prop :=
  ∀ (i j : Instr) (s t u : State), writesBuffer i = true → writesBuffer j = true →
    exec i s = .next t → exec j t = .next u → u.dbuf = t.dbuf →
      ∃ es, t.trace = s.trace ++ es ∧ u.trace = t.trace ++ es

/-- R280: the measures of a commit's cost: 100 line requests, or 3 line requests and 32 serial bits. -/
def Obligations.CommitCostsByMode : Prop :=
  ∀ (i : Instr) (s : State) (tPulseMin bitTime : Nat), writesBuffer i = true → s.claimed = true →
    ∃ t es, exec i s = .next t ∧ t.trace = s.trace ++ es ∧
      wallClock tPulseMin bitTime es =
        match s.mode with
        | .bitbang => 100 * tPulseMin
        | .burst => 3 * tPulseMin + 32 * bitTime

/-! ### Invariants and whole-machine rules -/

/-- The lines agree with the lifecycle, and every step keeps it (R26, R28, R164, R166, R169). -/
def Obligations.StepsKeepLinesFollowingClaim : Prop :=
  ∀ s t : State, LinesFollowClaim s → step s = .next t → LinesFollowClaim t

/-- The lines agree with the lifecycle at reset, whatever the construction arguments. -/
def Obligations.LinesFollowClaimAtReset : Prop :=
  (∀ (mode : Mode) (pol : Polarity) (gl : Glyphs) (reading : FloatScale) (phase : BlinkPhase),
    LinesFollowClaim (State.construct mode pol gl reading phase)) ∧
  LinesFollowClaim State.reset

/-- The line registers are what the events of `TRACE` leave, and every step keeps it (R28, R59, R151). -/
def Obligations.StepsKeepLinesReplayingTrace : Prop :=
  ∀ s t : State, LinesReplayTrace s → step s = .next t → LinesReplayTrace t

/-- The line registers replay `TRACE` at reset, with any number of free values drawn before. -/
def Obligations.LinesReplayTraceAtReset : Prop :=
  ∀ (mode : Mode) (pol : Polarity) (n : Nat), LinesReplayTrace { State.construct mode pol with drawn := n }

/-- R23 to R25: the mode, the polarity, the glyph ROM and the parameters never change. -/
def Obligations.ConfigurationNeverChanges : Prop :=
  ∀ s t : State, step s = .next t →
    t.mode = s.mode ∧ t.pol = s.pol ∧ t.glyphs = s.glyphs ∧ t.floatScale = s.floatScale ∧ t.blinkLit = s.blinkLit

/-- R30, R55, R155: `TRACE` only grows, and a command that neither commits on claimed lines nor is BEGIN or END leaves it as
it was. -/
def Obligations.TraceOnlyGrows : Prop :=
  (∀ s t : State, step s = .next t → ∃ es, t.trace = s.trace ++ es) ∧
  (∀ (i : Instr) (s t : State), exec i s = .next t → t.trace ≠ s.trace →
    (writesBuffer i = true ∧ s.claimed = true) ∨ i = .beginCmd ∨ i = .endCmd)

/-- R22, R26, R27, R28, R29, R200: which commands write each register. The line registers change only with wire events, and
directions only by BEGIN and END. (`MODE`, `POL` and `GLYPHS`, which nothing writes, are in ConfigurationNeverChanges, and
`TRACE` is in TraceOnlyGrows.) -/
def Obligations.EachRegisterHasItsWriters : Prop :=
  ∀ (i : Instr) (s t : State), exec i s = .next t →
    (t.dbuf ≠ s.dbuf → writesBuffer i = true) ∧
    (t.rdata ≠ s.rdata → ∃ k, i = .getPix k) ∧
    (t.claimed ≠ s.claimed → i = .beginCmd ∨ i = .endCmd) ∧
    (t.spiEn ≠ s.spiEn → (i = .beginCmd ∧ s.mode = .burst) ∨ i = .endCmd) ∧
    (∀ l, t.line l ≠ s.line l → t.trace ≠ s.trace ∧
      ((writesBuffer i = true ∧ s.claimed = true) ∨ i = .beginCmd ∨ i = .endCmd)) ∧
    (∀ l, (t.line l).dir ≠ (s.line l).dir → i = .beginCmd ∨ i = .endCmd) ∧
    (i = .beginCmd → t.claimed = true) ∧ (i = .endCmd → t.claimed = false)

/-! ### The encoder -/

/-- R105 to R108: the code that `FormatField` puts on each place of a field of any width, for every integer. -/
def Obligations.FormatFieldShowsEveryPlace : Prop :=
  ∀ (gl : Glyphs) (v : Int) (W : Nat) (pad : Bool) (j : Nat), j < W →
    ∀ code, (formatField gl v W pad)[W - 1 - j]? = some code → FieldShows gl v W pad j code

/-- R106: zero is one NUM[0] on the right, the rest filled with blanks or with NUM[0]. -/
def Obligations.ZeroFillsWithBlankOrZero : Prop :=
  ∀ (gl : Glyphs) (W : Nat), W = 2 ∨ W = 3 ∨ W = 4 →
    (formatField gl 0 W false).toList = List.replicate (W - 1) gl.blank ++ [numeralOf gl 0] ∧
    (formatField gl 0 W true).toList = List.replicate W (numeralOf gl 0)

/-- R110 and the source's property S11: from -999 to 9999 the display reads back as the integer. -/
def Obligations.ShownIntegersReadBack : Prop :=
  ∀ (s : State) (v : Int), DistinctGlyphs s.glyphs → -999 ≤ v → v ≤ 9999 →
    ∃ t, exec (.setInt v false 0) s = .next t ∧
      numberRead s.glyphs [digitOf t.dbuf 1, digitOf t.dbuf 2, digitOf t.dbuf 3, digitOf t.dbuf 4] = some v

/-- The colon is lit when not blinking; when blinking it toggles every 500 time units, the two phase choices are
opposite, and the lit half lasts 796 units across the wrap of the 32-bit time (an inference the spec marks as its own). QD2
does not blink on its own: with no command presented nothing changes (log entry 2). -/
def Obligations.ColonTogglesEveryHalfPeriod : Prop :=
  (∀ (phase : BlinkPhase) (now : Nat), colon phase false now = true) ∧
  (∀ (phase : BlinkPhase) (now : Nat), colon phase true (now + 500) = !colon phase true now) ∧
  (∀ (now k : Nat), k < 500 → now % 500 = 0 → colon .even true (now + k) = colon .even true now) ∧
  (∀ now : Nat, colon .odd true now = !colon .even true now) ∧
  colon .even true 0 = true ∧
  (∀ now : Nat, 4294967000 ≤ now → now ≤ 4294967295 → colon .even true now = true) ∧
  colon .even true 4294966999 = false ∧
  (∀ s : State, s.port = [] → step s = .next s)

/-- R113: the dot mask of a precision. -/
def Obligations.DotMaskOfThePrecision : Prop :=
  (∀ p k : Nat, p < 4 → k < 4 → (dotMaskFor p).getLsbD (3 - k) = decide (k = 3 - p)) ∧
  (∀ p : Nat, 4 ≤ p → dotMaskFor p = 0)

/-- R102, its two columns: the codes of the default ROM and the segments each lights. -/
def Obligations.GlyphRomLightsItsSegments : Prop :=
  let segments (code : SegCode) : List Segment := [.a, .b, .c, .d, .e, .f, .g, .dp].filter (segmentLit code)
  (List.range 10).map (fun d => segments (numeralOf glyphRom d)) =
    [[.a, .b, .c, .d, .e, .f], [.b, .c], [.a, .b, .d, .e, .g], [.a, .b, .c, .d, .g], [.b, .c, .f, .g],
     [.a, .c, .d, .f, .g], [.a, .c, .d, .e, .f, .g], [.a, .b, .c], [.a, .b, .c, .d, .e, .f, .g],
     [.a, .b, .c, .d, .f, .g]] ∧
  [glyphRom.blank, glyphRom.minus, glyphRom.dot, glyphRom.degree, glyphRom.c, glyphRom.underDegree,
    glyphRom.underscoreDot].map segments =
    [[], [.g], [.dp], [.a, .b, .f, .g], [.a, .d, .e, .f], [.c, .d, .e, .g], [.d, .dp]] ∧
  (List.range 10).map (numeralOf glyphRom) = [0xFC, 0x60, 0xDA, 0xF2, 0x66, 0xB6, 0xBE, 0xE0, 0xFE, 0xF6] ∧
  [glyphRom.blank, glyphRom.minus, glyphRom.dot, glyphRom.degree, glyphRom.c, glyphRom.underDegree,
    glyphRom.underscoreDot] = [0x00, 0x02, 0x01, 0xC6, 0x9C, 0x3A, 0x11]

/-! ### The float operand -/

/-- R112's "binary32 nearest to ..., ties to even": the rounded value is a binary32 value, none is nearer, and where another
is as near, the rounded one has an even significand. -/
def Obligations.RoundingIsToTheNearest : Prop :=
  ∀ r t : Rat, roundBinary32 r = some t →
    (∃ x, binary32Value x = some t) ∧
    ∀ (y : BitVec 32) (u : Rat), binary32Value y = some u →
      |t - r| ≤ |u - r| ∧ (|t - r| = |u - r| → u ≠ t → ∀ x, binary32Value x = some t → x.getLsbD 0 = false)

/-- A magnitude rounds to an infinity exactly from half a unit above the largest binary32 value on (R112, D7). -/
def Obligations.RoundingOverflowsFromTheMidpoint : Prop :=
  ∀ r : Rat, roundBinary32 r = none ↔ (2 : Rat) ^ 128 - 2 ^ 103 ≤ |r|

/-- R112's default reading: one product by binary32(10^p), rounded to binary32 and truncated toward zero; 0 when the
product overflows. -/
def Obligations.DefaultScalingRoundsOnceAndTruncates : Prop :=
  ∀ (x : BitVec 32) (p : Nat) (v s : Rat), binary32Value x = some v → roundBinary32 (10 ^ p) = some s →
    (∀ t, roundBinary32 (v * s) = some t → TruncationOf (floatScaleOf .single x p) t) ∧
    (roundBinary32 (v * s) = none → floatScaleOf .single x p = 0)

/-- R112: where the product by 10^p (p at most 10) is a binary32 value, the default reading and exact scaling agree on its
truncation; every non-finite datum gives 0 by the default. -/
def Obligations.ExactProductsScaleExactly : Prop :=
  (∀ (x y : BitVec 32) (v : Rat) (p : Nat), p ≤ 10 → binary32Value x = some v → binary32Value y = some (v * 10 ^ p) →
    floatScaleOf .single x p = truncRat (v * 10 ^ p) ∧ floatScaleOf .exact x p = truncRat (v * 10 ^ p)) ∧
  (∀ (x : BitVec 32) (p : Nat), binary32Value x = none → floatScaleOf .single x p = 0)

/-- R112's two other readings: exact scaling is the truncation of the exact product for every finite datum; iterated
scaling is the truncation of the last of `p` products by 10, each rounded to binary32, where none overflows. -/
def Obligations.ExactAndIteratedScalingTruncateTheirProducts : Prop :=
  (∀ (x : BitVec 32) (p : Nat) (v : Rat), binary32Value x = some v →
    TruncationOf (floatScaleOf .exact x p) (v * 10 ^ p)) ∧
  (∀ (x : BitVec 32) (p : Nat) (r : Nat → Rat), binary32Value x = some (r 0) →
    (∀ k < p, roundBinary32 (r k * 10) = some (r (k + 1))) → TruncationOf (floatScaleOf .iterated x p) (r p))

/-! ### The assembler -/

/-- R80: a line that assembles gives the word of its command, and that word decodes to the command. -/
def Obligations.AssembledLinesDecode : Prop :=
  ∀ (gl : Glyphs) (l : AsmLine) (w : CmdWord), assemble gl l = some w →
    ∃ i, commandOf gl l = some i ∧ WellFormed i = true ∧ decode w = .command i

/-- R80: "An assembler refuses an operand outside the stated range; it never wraps one." -/
def Obligations.OperandsOutOfRangeAreRefused : Prop :=
  ∀ (gl : Glyphs) (n : Int) (a b c : AsmOperand),
    (¬ (-2147483648 ≤ n ∧ n ≤ 2147483647) →
      assemble gl ⟨"SETINT", [.number n, a, b]⟩ = none ∧ assemble gl ⟨"SETTEMPC", [.number n, a]⟩ = none ∧
      assemble gl ⟨"SETHUM", [.number n, a]⟩ = none) ∧
    (¬ (0 ≤ n ∧ n ≤ 4294967295) →
      assemble gl ⟨"SETSEG", [.number n]⟩ = none ∧ assemble gl ⟨"SETSCORE", [a, b, c, .number n]⟩ = none) ∧
    (¬ (0 ≤ n ∧ n ≤ 255) →
      assemble gl ⟨"SETIP", [.number n]⟩ = none ∧ assemble gl ⟨"SETSCORE", [.number n, a, b, c]⟩ = none ∧
      assemble gl ⟨"SETSCORE", [a, .number n, b, c]⟩ = none ∧
      assemble gl ⟨"SETDIGITS", [.number n, a, b, c]⟩ = none ∧ assemble gl ⟨"SETDIGITS", [a, .number n, b, c]⟩ = none ∧
      assemble gl ⟨"SETDIGITS", [a, b, .number n, c]⟩ = none ∧ assemble gl ⟨"SETDIGITS", [a, b, c, .number n]⟩ = none) ∧
    (¬ (0 ≤ n ∧ n ≤ 31) → assemble gl ⟨"GETPIX", [.number n]⟩ = none) ∧
    (¬ (0 ≤ n ∧ n ≤ 15) →
      assemble gl ⟨"SETINT", [a, b, .number n]⟩ = none ∧ assemble gl ⟨"SETFLOAT", [a, .number n, b]⟩ = none) ∧
    (¬ (0 ≤ n ∧ n ≤ 1) →
      assemble gl ⟨"PUSHBIT", [.number n]⟩ = none ∧ assemble gl ⟨"SETINT", [a, .number n, b]⟩ = none ∧
      assemble gl ⟨"SETFLOAT", [a, b, .number n]⟩ = none ∧ assemble gl ⟨"SETTEMPC", [a, .number n]⟩ = none ∧
      assemble gl ⟨"SETHUM", [a, .number n]⟩ = none ∧ assemble gl ⟨"SETSCORE", [a, b, .number n, c]⟩ = none)

/-- R82: the pseudo-instructions and their expansions; BLANKALL does what CLEAR does. -/
def Obligations.PseudoInstructionsExpand : Prop :=
  (∀ (gl : Glyphs) (v : AsmOperand), assemble gl ⟨"SETINT", [v]⟩ = assemble gl ⟨"SETINT", [v, .number 0, .number 0]⟩) ∧
  (∀ (gl : Glyphs) (v pad : AsmOperand),
    assemble gl ⟨"SETINT", [v, pad]⟩ = assemble gl ⟨"SETINT", [v, pad, .number 0]⟩) ∧
  (∀ (gl : Glyphs) (x p : AsmOperand),
    assemble gl ⟨"SETFLOAT", [x, p]⟩ = assemble gl ⟨"SETFLOAT", [x, p, .number 0]⟩) ∧
  (∀ (gl : Glyphs) (v : AsmOperand), assemble gl ⟨"SETTEMPC", [v]⟩ = assemble gl ⟨"SETTEMPC", [v, .number 0]⟩) ∧
  (∀ (gl : Glyphs) (v : AsmOperand), assemble gl ⟨"SETHUM", [v]⟩ = assemble gl ⟨"SETHUM", [v, .number 0]⟩) ∧
  (∀ (gl : Glyphs) (h m : AsmOperand),
    assemble gl ⟨"SETSCORE", [h, m]⟩ = assemble gl ⟨"SETSCORE", [h, m, .number 0, .number 0]⟩) ∧
  (∀ gl : Glyphs, assemble gl ⟨"BLANKALL", []⟩ = assemble gl ⟨"SETDIGITS",
    [.glyph .blank false, .glyph .blank false, .glyph .blank false, .glyph .blank false]⟩) ∧
  (∀ s : State, ∃ i, commandOf s.glyphs ⟨"BLANKALL", []⟩ = some i ∧ exec i s = exec .clear s)

/-- R81: a SETFLOAT line with a decimal literal assembles to a word whose `VAL` is a datum of the binary32 value nearest to
the literal, ties to even. (A literal beyond the binary32 range is log entry 7, and nothing is said of its datum.) -/
def Obligations.LiteralsRoundToTheNearest : Prop :=
  ∀ (gl : Glyphs) (x : Decimal) (p : Nat) (pad : Bool), p ≤ 15 →
    ∃ w, assemble gl ⟨"SETFLOAT", [.real x, .number p, bitOperand pad]⟩ = some w ∧
      w.extractLsb' 0 32 = binary32OfDecimal x ∧
      ∀ t : Rat, roundBinary32 (if x.negative then -(decimalMagnitude x) else decimalMagnitude x) = some t →
        binary32Value (w.extractLsb' 0 32) = some t

/-- R80's table: with operands in range, each syntax assembles to the word of its command, its operands in the order
written. -/
def Obligations.EachSyntaxAssemblesToItsCommand : Prop :=
  ∀ gl : Glyphs,
    (∀ (a1 a2 a3 a4 : AsmOperand) (d1 d2 d3 d4 : SegCode),
      WritesCode gl a1 d1 → WritesCode gl a2 d2 → WritesCode gl a3 d3 → WritesCode gl a4 d4 →
        assemble gl ⟨"SETDIGITS", [a1, a2, a3, a4]⟩ = some (encode (.setDigits d1 d2 d3 d4))) ∧
    (∀ w : Word, assemble gl ⟨"SETSEG", [.number w.toNat]⟩ = some (encode (.setSeg w))) ∧
    assemble gl ⟨"CLEAR", []⟩ = some (encode .clear) ∧
    (∀ (v : Int) (pad : Bool) (dots : BitVec 4), -2147483648 ≤ v → v ≤ 2147483647 →
      assemble gl ⟨"SETINT", [.number v, bitOperand pad, .number dots.toNat]⟩ = some (encode (.setInt v pad dots))) ∧
    (∀ (x : Decimal) (p : Nat) (pad : Bool), p ≤ 15 →
      assemble gl ⟨"SETFLOAT", [.real x, .number p, bitOperand pad]⟩
        = some (encode (.setFloat (binary32OfDecimal x) p pad))) ∧
    (∀ (v : Int) (pad : Bool), -2147483648 ≤ v → v ≤ 2147483647 →
      assemble gl ⟨"SETTEMPC", [.number v, bitOperand pad]⟩ = some (encode (.setTempC v pad)) ∧
      assemble gl ⟨"SETHUM", [.number v, bitOperand pad]⟩ = some (encode (.setHum v pad))) ∧
    (∀ (h m : Nat) (blink : Bool) (now : Nat), h ≤ 255 → m ≤ 255 → now ≤ 4294967295 →
      assemble gl ⟨"SETSCORE", [.number h, .number m, bitOperand blink, .number now]⟩
        = some (encode (.setScore h m blink now))) ∧
    (∀ o : Nat, o ≤ 255 → assemble gl ⟨"SETIP", [.number o]⟩ = some (encode (.setIp o))) ∧
    (∀ b : Bool, assemble gl ⟨"PUSHBIT", [bitOperand b]⟩ = some (encode (.pushBit b))) ∧
    (∀ i : Nat, i ≤ 31 → assemble gl ⟨"GETPIX", [.number i]⟩ = some (encode (.getPix i))) ∧
    assemble gl ⟨"BEGIN", []⟩ = some (encode .beginCmd) ∧
    assemble gl ⟨"END", []⟩ = some (encode .endCmd)
end

