-- ==== Sys2Proof/Laws/Encode.lean ====
section
/-! SUPPORT. Fields of a command word: reading a placed field back, and what placed fields leave of the others. -/

namespace Sys2Proof

@[simp] theorem place_getLsbD {n : Nat} (v : BitVec n) (lo k : Nat) :
    (place v lo).getLsbD k = (decide (k < 64) && decide (lo ≤ k) && v.getLsbD (k - lo)) := by
  by_cases h : k < 64
  · by_cases hl : lo ≤ k
    · simp [place, h, hl, Nat.not_lt.mpr hl]
    · simp [place, h, hl, Nat.lt_of_not_le hl]
  · simp [h, BitVec.getLsbD_of_ge _ _ (Nat.le_of_not_lt h)]

@[simp] theorem place_getElem {n : Nat} (v : BitVec n) (lo k : Nat) (h : k < 64) :
    (place v lo)[k] = (decide (lo ≤ k) && v.getLsbD (k - lo)) := by
  rw [← BitVec.getLsbD_eq_getElem, place_getLsbD]
  simp [h]

@[simp] theorem field_or (a b : CmdWord) (lo n : Nat) : field (a ||| b) lo n = field a lo n ||| field b lo n := by
  apply BitVec.eq_of_getLsbD_eq
  intro k hk
  simp [field, hk]

/-- A placed field is read back whole. -/
theorem field_place {n : Nat} (v : BitVec n) (lo : Nat) (h : lo + n ≤ 64) : field (place v lo) lo n = v := by
  apply BitVec.eq_of_getLsbD_eq
  intro k hk
  have h1 : lo + k < 64 := by omega
  simp only [field, BitVec.getLsbD_extractLsb', place_getLsbD, hk, h1]
  simp

/-- A placed field leaves every field beside it 0. -/
theorem field_place_beside {m : Nat} (v : BitVec m) (at_ lo n : Nat) (h : at_ + m ≤ lo ∨ lo + n ≤ at_) :
    field (place v at_) lo n = 0#n := by
  apply BitVec.eq_of_getLsbD_eq
  intro k hk
  have hv : at_ ≤ lo + k → v.getLsbD (lo + k - at_) = false := fun _ => BitVec.getLsbD_of_ge _ _ (by omega)
  by_cases hl : at_ ≤ lo + k <;> simp [field, hk, hl, hv]

end Sys2Proof
end

