-- ==== Sys2Proof/Laws/Encoder.lean ====
section
/-! SUPPORT. What the loop of the field formatter does, said once. -/

namespace Sys2Proof.Machine

/-- What `fieldLoop` answers with `i` positions free and the magnitude `m`: digits from its index to the last free
position, every other position as it was, and how far left the digits reach. -/
structure FieldLoopSpec (gl : Glyphs) (pad : Bool) {W : Nat} (i m : Nat) (F : Vector SegCode W)
    (r : Nat × Vector SegCode W) : Prop where
  index_lt : r.1 < i
  digits : ∀ k, r.1 ≤ k → k < i → r.2[k]? = some (numeralOf gl (m / 10 ^ (i - 1 - k)))
  others : ∀ k, k < r.1 ∨ i ≤ k → r.2[k]? = F[k]?
  reach : ∀ k, k < i → (r.1 ≤ k ↔ pad = true ∨ i - 1 - k = 0 ∨ 10 ^ (i - 1 - k) ≤ m)

theorem fieldLoop_spec (gl : Glyphs) (pad : Bool) {W : Nat} (i m : Nat) (F : Vector SegCode W) (hi : 0 < i) (hW : i ≤ W) :
    FieldLoopSpec gl pad i m F (fieldLoop gl pad i m F) := by
  induction i generalizing m F with
  | zero => omega
  | succ i ih =>
    have set_here : (F.setIfInBounds i (numeralOf gl m))[i]? = some (numeralOf gl m) := by
      have : i < W := by omega
      simp [this]
    have set_other : ∀ k, k ≠ i → (F.setIfInBounds i (numeralOf gl m))[k]? = F[k]? := by
      intro k hk
      simp [hk.symm]
    rw [fieldLoop]
    split
    · rename_i hstop
      refine ⟨Nat.lt_succ_self i, ?_, ?_, ?_⟩
      · intro k h1 h2
        obtain rfl : k = i := by omega
        simpa using set_here
      · intro k hk
        exact set_other k (by omega)
      · intro k hk
        constructor
        · intro h
          exact .inr (.inl (by simp only at h; omega))
        · rintro (h | h | h)
          · obtain h0 | ⟨-, hp⟩ := hstop
            · simp only
              omega
            · simp [h] at hp
          · simp only
            omega
          · obtain h0 | ⟨hm, -⟩ := hstop
            · simp only
              omega
            · simp only
              by_contra hlt
              have hm10 : m < 10 := by omega
              have : 10 ^ 1 ≤ 10 ^ (i + 1 - 1 - k) := Nat.pow_le_pow_right (by decide) (by omega)
              omega
    · rename_i hgo
      have hi0 : i ≠ 0 := fun h => hgo (.inl h)
      have spec := ih (m / 10) (F.setIfInBounds i (numeralOf gl m)) (by omega) (by omega)
      revert spec
      generalize fieldLoop gl pad i (m / 10) (F.setIfInBounds i (numeralOf gl m)) = r
      intro spec
      refine ⟨Nat.lt_succ_of_lt spec.index_lt, ?_, ?_, ?_⟩
      · intro k h1 h2
        by_cases hk : k = i
        · subst hk
          rw [spec.others k (.inr (Nat.le_refl k)), set_here]
          simp
        · rw [spec.digits k h1 (by omega), Nat.div_div_eq_div_mul, ← Nat.pow_succ']
          congr 4
          omega
      · intro k hk
        rw [spec.others k (by omega), set_other k (by have := spec.index_lt; omega)]
      · intro k hk
        by_cases hki : k = i
        · subst hki
          have := spec.index_lt
          constructor
          · intro _
            exact .inr (.inl (by omega))
          · intro _
            omega
        · rw [spec.reach k (by omega)]
          have hpow : 10 ^ (i + 1 - 1 - k) = 10 ^ (i - 1 - k) * 10 := by
            rw [← Nat.pow_succ]
            congr 1
            omega
          have hle : 10 ^ (i - 1 - k) ≤ m / 10 ↔ 10 ^ (i + 1 - 1 - k) ≤ m := by
            rw [hpow, Nat.le_div_iff_mul_le (by decide)]
          constructor
          · rintro (h | h | h)
            · exact .inl h
            · by_cases hp : pad = true
              · exact .inl hp
              · have hp' : pad = false := by simpa using hp
                have hm : m / 10 ≠ 0 := fun h0 => hgo (.inr ⟨h0, hp'⟩)
                refine .inr (.inr ?_)
                rw [← hle, h]
                omega
            · exact .inr (.inr (hle.mp h))
          · rintro (h | h | h)
            · exact .inl h
            · omega
            · exact .inr (.inr (hle.mpr h))

end Sys2Proof.Machine
end

