-- ==== Sys2Proof/Laws/Operands.lean ====
section
/-! SUPPORT. What truncation and iterated scaling do, said once. -/

namespace Sys2Proof.Machine

theorem truncRat_truncates (t : Rat) : TruncationOf (truncRat t) t := by
  have hden : (0 : Int) < t.den := by exact_mod_cast t.den_pos
  have hden' : (0 : Rat) < t.den := by exact_mod_cast hden
  have hval : t * t.den = t.num := Rat.mul_den_eq_num t
  have hdiv : (t.num : Rat) = (t.num.tdiv t.den : Rat) * t.den + (t.num.tmod t.den : Rat) := by
    exact_mod_cast (Int.tdiv_mul_add_tmod t.num t.den).symm
  unfold TruncationOf truncRat
  constructor <;> intro ht
  · have h0 : (0 : Rat) ≤ (t.num.tmod t.den : Rat) := by
      exact_mod_cast Int.tmod_nonneg (t.den : Int) (Rat.num_nonneg.mpr ht)
    have h1 : (t.num.tmod t.den : Rat) < t.den := by exact_mod_cast Int.tmod_lt_of_pos t.num hden
    constructor <;> by_contra hc <;> push Not at hc <;> nlinarith
  · have hneg : 0 ≤ -t.num := by have := Rat.num_neg.mpr ht; omega
    have h0 : (t.num.tmod t.den : Rat) ≤ 0 := by
      have := Int.tmod_nonneg (t.den : Int) hneg
      rw [Int.neg_tmod] at this
      exact_mod_cast (by omega : t.num.tmod t.den ≤ 0)
    have h1 : -(t.den : Rat) < (t.num.tmod t.den : Rat) := by
      have := Int.tmod_lt_of_pos (-t.num) hden
      rw [Int.neg_tmod] at this
      exact_mod_cast (by omega : -(t.den : Int) < t.num.tmod t.den)
    constructor <;> by_contra hc <;> push Not at hc <;> nlinarith

/-- `p` products by 10 that do not overflow, from the first value to the last. -/
theorem scaleIterated_of_steps (p : Nat) (r : Nat → Rat) (h : ∀ k < p, roundBinary32 (r k * 10) = some (r (k + 1))) :
    scaleIterated p (r 0) = some (r p) := by
  induction p generalizing r with
  | zero => rfl
  | succ p ih =>
    rw [scaleIterated, h 0 (by omega), Option.bind_some]
    exact ih (fun k => r (k + 1)) (fun k hk => h (k + 1) (by omega))

end Sys2Proof.Machine
end

