-- ==== Sys2Proof/Laws/State.lean ====
section
/-! SUPPORT. One lemma per field per update of State, each true by rfl, so that no proof unfolds a record update. -/

namespace Sys2Proof.Machine

variable (s : State)

@[simp] theorem State.withDbuf_dbuf (w : Word) : (s.withDbuf w).dbuf = w := rfl
@[simp] theorem State.withDbuf_mode (w : Word) : (s.withDbuf w).mode = s.mode := rfl
@[simp] theorem State.withDbuf_pol (w : Word) : (s.withDbuf w).pol = s.pol := rfl
@[simp] theorem State.withDbuf_glyphs (w : Word) : (s.withDbuf w).glyphs = s.glyphs := rfl
@[simp] theorem State.withDbuf_claimed (w : Word) : (s.withDbuf w).claimed = s.claimed := rfl
@[simp] theorem State.withDbuf_spiEn (w : Word) : (s.withDbuf w).spiEn = s.spiEn := rfl
@[simp] theorem State.withDbuf_stb (w : Word) : (s.withDbuf w).stb = s.stb := rfl
@[simp] theorem State.withDbuf_data (w : Word) : (s.withDbuf w).data = s.data := rfl
@[simp] theorem State.withDbuf_clk (w : Word) : (s.withDbuf w).clk = s.clk := rfl
@[simp] theorem State.withDbuf_rdata (w : Word) : (s.withDbuf w).rdata = s.rdata := rfl
@[simp] theorem State.withDbuf_trace (w : Word) : (s.withDbuf w).trace = s.trace := rfl
@[simp] theorem State.withDbuf_floatScale (w : Word) : (s.withDbuf w).floatScale = s.floatScale := rfl
@[simp] theorem State.withDbuf_blinkLit (w : Word) : (s.withDbuf w).blinkLit = s.blinkLit := rfl
@[simp] theorem State.withDbuf_port (w : Word) : (s.withDbuf w).port = s.port := rfl
@[simp] theorem State.withDbuf_drawn (w : Word) : (s.withDbuf w).drawn = s.drawn := rfl
@[simp] theorem State.withDbuf_line (w : Word) (l : Line) : (s.withDbuf w).line l = s.line l := by cases l <;> rfl

@[simp] theorem State.withRdata_dbuf (b : Bool) : (s.withRdata b).dbuf = s.dbuf := rfl
@[simp] theorem State.withRdata_mode (b : Bool) : (s.withRdata b).mode = s.mode := rfl
@[simp] theorem State.withRdata_pol (b : Bool) : (s.withRdata b).pol = s.pol := rfl
@[simp] theorem State.withRdata_glyphs (b : Bool) : (s.withRdata b).glyphs = s.glyphs := rfl
@[simp] theorem State.withRdata_claimed (b : Bool) : (s.withRdata b).claimed = s.claimed := rfl
@[simp] theorem State.withRdata_spiEn (b : Bool) : (s.withRdata b).spiEn = s.spiEn := rfl
@[simp] theorem State.withRdata_stb (b : Bool) : (s.withRdata b).stb = s.stb := rfl
@[simp] theorem State.withRdata_data (b : Bool) : (s.withRdata b).data = s.data := rfl
@[simp] theorem State.withRdata_clk (b : Bool) : (s.withRdata b).clk = s.clk := rfl
@[simp] theorem State.withRdata_rdata (b : Bool) : (s.withRdata b).rdata = b := rfl
@[simp] theorem State.withRdata_trace (b : Bool) : (s.withRdata b).trace = s.trace := rfl
@[simp] theorem State.withRdata_floatScale (b : Bool) : (s.withRdata b).floatScale = s.floatScale := rfl
@[simp] theorem State.withRdata_blinkLit (b : Bool) : (s.withRdata b).blinkLit = s.blinkLit := rfl
@[simp] theorem State.withRdata_port (b : Bool) : (s.withRdata b).port = s.port := rfl
@[simp] theorem State.withRdata_drawn (b : Bool) : (s.withRdata b).drawn = s.drawn := rfl
@[simp] theorem State.withRdata_line (b : Bool) (l : Line) : (s.withRdata b).line l = s.line l := by cases l <;> rfl

@[simp] theorem State.withClaimed_dbuf (b : Bool) : (s.withClaimed b).dbuf = s.dbuf := rfl
@[simp] theorem State.withClaimed_mode (b : Bool) : (s.withClaimed b).mode = s.mode := rfl
@[simp] theorem State.withClaimed_pol (b : Bool) : (s.withClaimed b).pol = s.pol := rfl
@[simp] theorem State.withClaimed_glyphs (b : Bool) : (s.withClaimed b).glyphs = s.glyphs := rfl
@[simp] theorem State.withClaimed_claimed (b : Bool) : (s.withClaimed b).claimed = b := rfl
@[simp] theorem State.withClaimed_spiEn (b : Bool) : (s.withClaimed b).spiEn = s.spiEn := rfl
@[simp] theorem State.withClaimed_stb (b : Bool) : (s.withClaimed b).stb = s.stb := rfl
@[simp] theorem State.withClaimed_data (b : Bool) : (s.withClaimed b).data = s.data := rfl
@[simp] theorem State.withClaimed_clk (b : Bool) : (s.withClaimed b).clk = s.clk := rfl
@[simp] theorem State.withClaimed_rdata (b : Bool) : (s.withClaimed b).rdata = s.rdata := rfl
@[simp] theorem State.withClaimed_trace (b : Bool) : (s.withClaimed b).trace = s.trace := rfl
@[simp] theorem State.withClaimed_floatScale (b : Bool) : (s.withClaimed b).floatScale = s.floatScale := rfl
@[simp] theorem State.withClaimed_blinkLit (b : Bool) : (s.withClaimed b).blinkLit = s.blinkLit := rfl
@[simp] theorem State.withClaimed_port (b : Bool) : (s.withClaimed b).port = s.port := rfl
@[simp] theorem State.withClaimed_drawn (b : Bool) : (s.withClaimed b).drawn = s.drawn := rfl
@[simp] theorem State.withClaimed_line (b : Bool) (l : Line) : (s.withClaimed b).line l = s.line l := by cases l <;> rfl

@[simp] theorem State.withSpiEn_dbuf (b : Bool) : (s.withSpiEn b).dbuf = s.dbuf := rfl
@[simp] theorem State.withSpiEn_mode (b : Bool) : (s.withSpiEn b).mode = s.mode := rfl
@[simp] theorem State.withSpiEn_pol (b : Bool) : (s.withSpiEn b).pol = s.pol := rfl
@[simp] theorem State.withSpiEn_glyphs (b : Bool) : (s.withSpiEn b).glyphs = s.glyphs := rfl
@[simp] theorem State.withSpiEn_claimed (b : Bool) : (s.withSpiEn b).claimed = s.claimed := rfl
@[simp] theorem State.withSpiEn_spiEn (b : Bool) : (s.withSpiEn b).spiEn = b := rfl
@[simp] theorem State.withSpiEn_stb (b : Bool) : (s.withSpiEn b).stb = s.stb := rfl
@[simp] theorem State.withSpiEn_data (b : Bool) : (s.withSpiEn b).data = s.data := rfl
@[simp] theorem State.withSpiEn_clk (b : Bool) : (s.withSpiEn b).clk = s.clk := rfl
@[simp] theorem State.withSpiEn_rdata (b : Bool) : (s.withSpiEn b).rdata = s.rdata := rfl
@[simp] theorem State.withSpiEn_trace (b : Bool) : (s.withSpiEn b).trace = s.trace := rfl
@[simp] theorem State.withSpiEn_floatScale (b : Bool) : (s.withSpiEn b).floatScale = s.floatScale := rfl
@[simp] theorem State.withSpiEn_blinkLit (b : Bool) : (s.withSpiEn b).blinkLit = s.blinkLit := rfl
@[simp] theorem State.withSpiEn_port (b : Bool) : (s.withSpiEn b).port = s.port := rfl
@[simp] theorem State.withSpiEn_drawn (b : Bool) : (s.withSpiEn b).drawn = s.drawn := rfl
@[simp] theorem State.withSpiEn_line (b : Bool) (l : Line) : (s.withSpiEn b).line l = s.line l := by cases l <;> rfl

@[simp] theorem State.log_dbuf (e : Event) : (s.log e).dbuf = s.dbuf := rfl
@[simp] theorem State.log_mode (e : Event) : (s.log e).mode = s.mode := rfl
@[simp] theorem State.log_pol (e : Event) : (s.log e).pol = s.pol := rfl
@[simp] theorem State.log_glyphs (e : Event) : (s.log e).glyphs = s.glyphs := rfl
@[simp] theorem State.log_claimed (e : Event) : (s.log e).claimed = s.claimed := rfl
@[simp] theorem State.log_spiEn (e : Event) : (s.log e).spiEn = s.spiEn := rfl
@[simp] theorem State.log_stb (e : Event) : (s.log e).stb = s.stb := rfl
@[simp] theorem State.log_data (e : Event) : (s.log e).data = s.data := rfl
@[simp] theorem State.log_clk (e : Event) : (s.log e).clk = s.clk := rfl
@[simp] theorem State.log_rdata (e : Event) : (s.log e).rdata = s.rdata := rfl
@[simp] theorem State.log_trace (e : Event) : (s.log e).trace = s.trace ++ [e] := rfl
@[simp] theorem State.log_floatScale (e : Event) : (s.log e).floatScale = s.floatScale := rfl
@[simp] theorem State.log_blinkLit (e : Event) : (s.log e).blinkLit = s.blinkLit := rfl
@[simp] theorem State.log_port (e : Event) : (s.log e).port = s.port := rfl
@[simp] theorem State.log_drawn (e : Event) : (s.log e).drawn = s.drawn := rfl
@[simp] theorem State.log_line (e : Event) (l : Line) : (s.log e).line l = s.line l := by cases l <;> rfl

@[simp] theorem State.withPort_dbuf (p : List CmdWord) : (s.withPort p).dbuf = s.dbuf := rfl
@[simp] theorem State.withPort_mode (p : List CmdWord) : (s.withPort p).mode = s.mode := rfl
@[simp] theorem State.withPort_pol (p : List CmdWord) : (s.withPort p).pol = s.pol := rfl
@[simp] theorem State.withPort_glyphs (p : List CmdWord) : (s.withPort p).glyphs = s.glyphs := rfl
@[simp] theorem State.withPort_claimed (p : List CmdWord) : (s.withPort p).claimed = s.claimed := rfl
@[simp] theorem State.withPort_spiEn (p : List CmdWord) : (s.withPort p).spiEn = s.spiEn := rfl
@[simp] theorem State.withPort_stb (p : List CmdWord) : (s.withPort p).stb = s.stb := rfl
@[simp] theorem State.withPort_data (p : List CmdWord) : (s.withPort p).data = s.data := rfl
@[simp] theorem State.withPort_clk (p : List CmdWord) : (s.withPort p).clk = s.clk := rfl
@[simp] theorem State.withPort_rdata (p : List CmdWord) : (s.withPort p).rdata = s.rdata := rfl
@[simp] theorem State.withPort_trace (p : List CmdWord) : (s.withPort p).trace = s.trace := rfl
@[simp] theorem State.withPort_floatScale (p : List CmdWord) : (s.withPort p).floatScale = s.floatScale := rfl
@[simp] theorem State.withPort_blinkLit (p : List CmdWord) : (s.withPort p).blinkLit = s.blinkLit := rfl
@[simp] theorem State.withPort_port (p : List CmdWord) : (s.withPort p).port = p := rfl
@[simp] theorem State.withPort_drawn (p : List CmdWord) : (s.withPort p).drawn = s.drawn := rfl
@[simp] theorem State.withPort_line (p : List CmdWord) (l : Line) : (s.withPort p).line l = s.line l := by cases l <;> rfl

@[simp] theorem State.draw_dbuf : (s.draw).dbuf = s.dbuf := rfl
@[simp] theorem State.draw_mode : (s.draw).mode = s.mode := rfl
@[simp] theorem State.draw_pol : (s.draw).pol = s.pol := rfl
@[simp] theorem State.draw_glyphs : (s.draw).glyphs = s.glyphs := rfl
@[simp] theorem State.draw_claimed : (s.draw).claimed = s.claimed := rfl
@[simp] theorem State.draw_spiEn : (s.draw).spiEn = s.spiEn := rfl
@[simp] theorem State.draw_stb : (s.draw).stb = s.stb := rfl
@[simp] theorem State.draw_data : (s.draw).data = s.data := rfl
@[simp] theorem State.draw_clk : (s.draw).clk = s.clk := rfl
@[simp] theorem State.draw_rdata : (s.draw).rdata = s.rdata := rfl
@[simp] theorem State.draw_trace : (s.draw).trace = s.trace := rfl
@[simp] theorem State.draw_floatScale : (s.draw).floatScale = s.floatScale := rfl
@[simp] theorem State.draw_blinkLit : (s.draw).blinkLit = s.blinkLit := rfl
@[simp] theorem State.draw_port : (s.draw).port = s.port := rfl
@[simp] theorem State.draw_drawn : (s.draw).drawn = s.drawn + 1 := rfl
@[simp] theorem State.draw_line (l : Line) : (s.draw).line l = s.line l := by cases l <;> rfl

@[simp] theorem State.withLine_dbuf (l : Line) (r : LineReg) : (s.withLine l r).dbuf = s.dbuf := by cases l <;> rfl
@[simp] theorem State.withLine_mode (l : Line) (r : LineReg) : (s.withLine l r).mode = s.mode := by cases l <;> rfl
@[simp] theorem State.withLine_pol (l : Line) (r : LineReg) : (s.withLine l r).pol = s.pol := by cases l <;> rfl
@[simp] theorem State.withLine_glyphs (l : Line) (r : LineReg) : (s.withLine l r).glyphs = s.glyphs := by cases l <;> rfl
@[simp] theorem State.withLine_claimed (l : Line) (r : LineReg) : (s.withLine l r).claimed = s.claimed := by cases l <;> rfl
@[simp] theorem State.withLine_spiEn (l : Line) (r : LineReg) : (s.withLine l r).spiEn = s.spiEn := by cases l <;> rfl
@[simp] theorem State.withLine_stb (l : Line) (r : LineReg) : (s.withLine l r).stb = if l = .stb then r else s.stb := by cases l <;> rfl
@[simp] theorem State.withLine_data (l : Line) (r : LineReg) : (s.withLine l r).data = if l = .data then r else s.data := by cases l <;> rfl
@[simp] theorem State.withLine_clk (l : Line) (r : LineReg) : (s.withLine l r).clk = if l = .clk then r else s.clk := by cases l <;> rfl
@[simp] theorem State.withLine_rdata (l : Line) (r : LineReg) : (s.withLine l r).rdata = s.rdata := by cases l <;> rfl
@[simp] theorem State.withLine_trace (l : Line) (r : LineReg) : (s.withLine l r).trace = s.trace := by cases l <;> rfl
@[simp] theorem State.withLine_floatScale (l : Line) (r : LineReg) : (s.withLine l r).floatScale = s.floatScale := by cases l <;> rfl
@[simp] theorem State.withLine_blinkLit (l : Line) (r : LineReg) : (s.withLine l r).blinkLit = s.blinkLit := by cases l <;> rfl
@[simp] theorem State.withLine_port (l : Line) (r : LineReg) : (s.withLine l r).port = s.port := by cases l <;> rfl
@[simp] theorem State.withLine_drawn (l : Line) (r : LineReg) : (s.withLine l r).drawn = s.drawn := by cases l <;> rfl
@[simp] theorem State.withLine_line (l l' : Line) (r : LineReg) : (s.withLine l r).line l' = if l = l' then r else s.line l' := by
  cases l <;> cases l' <;> rfl

@[simp] theorem State.line_stb : s.line .stb = s.stb := rfl
@[simp] theorem State.line_data : s.line .data = s.data := rfl
@[simp] theorem State.line_clk : s.line .clk = s.clk := rfl

end Sys2Proof.Machine
end

