-- ==== Sys2Proof/Laws/Ops.lean ====
section
/-! SUPPORT. What the shared operations do, each said once: `applyEvent`, `emit`, `emitAll`, the command port and the
length and shape of the event lists. -/

namespace Sys2Proof.Machine

/-! ### Pins -/

theorem pin_of_output {s : State} {l : Line} (h : (s.line l).dir = .output) : s.pin l = some (s.line l).lvl := by
  simp [State.pin, h]

theorem pin_of_input {s : State} {l : Line} (h : (s.line l).dir = .input) : s.pin l = none := by
  simp [State.pin, h]

/-! ### One event -/

/-- What no wire event changes (R22, R151). -/
structure SameCore (s t : State) : Prop where
  dbuf : t.dbuf = s.dbuf
  mode : t.mode = s.mode
  pol : t.pol = s.pol
  glyphs : t.glyphs = s.glyphs
  claimed : t.claimed = s.claimed
  rdata : t.rdata = s.rdata
  floatScale : t.floatScale = s.floatScale
  blinkLit : t.blinkLit = s.blinkLit
  port : t.port = s.port

theorem SameCore.refl (s : State) : SameCore s s := ⟨rfl, rfl, rfl, rfl, rfl, rfl, rfl, rfl, rfl⟩

theorem SameCore.trans {s t u : State} (h : SameCore s t) (k : SameCore t u) : SameCore s u :=
  ⟨k.dbuf.trans h.dbuf, k.mode.trans h.mode, k.pol.trans h.pol, k.glyphs.trans h.glyphs, k.claimed.trans h.claimed,
    k.rdata.trans h.rdata, k.floatScale.trans h.floatScale, k.blinkLit.trans h.blinkLit, k.port.trans h.port⟩

theorem emit_sameCore (e : Event) (s : State) : SameCore s (emit e s) := by
  cases e <;> constructor <;> simp [emit, applyEvent, State.withDir, State.withLvl]

@[simp] theorem emit_trace (e : Event) (s : State) : (emit e s).trace = s.trace ++ [e] := by
  cases e <;> simp [emit, applyEvent, State.withDir, State.withLvl]

/-- The events of a commit: levels and serial bytes, which change no direction and do not touch the serial engine's bit. -/
def isData : Event → Bool
  | .lvl _ _ => true
  | .spiByte _ => true
  | .dir _ _ => false
  | .spiInit => false

theorem emit_dir_of_isData {e : Event} (h : isData e = true) (s : State) (l : Line) :
    ((emit e s).line l).dir = (s.line l).dir := by
  cases e with
  | lvl l' v => cases l <;> cases l' <;> simp [emit, applyEvent, State.withLvl]
  | spiByte b => cases l <;> simp [emit, applyEvent, State.withLvl]
  | dir _ _ => simp [isData] at h
  | spiInit => simp [isData] at h

theorem emit_spiEn_of_isData {e : Event} (h : isData e = true) (s : State) : (emit e s).spiEn = s.spiEn := by
  cases e with
  | lvl l' v => simp [emit, applyEvent, State.withLvl]
  | spiByte b => simp [emit, applyEvent, State.withLvl]
  | dir _ _ => simp [isData] at h
  | spiInit => simp [isData] at h

/-! ### A list of events -/

theorem emitAll_append (es fs : List Event) (s : State) : emitAll (es ++ fs) s = emitAll fs (emitAll es s) := by
  induction es generalizing s with
  | nil => rfl
  | cons e es ih => exact ih (emit e s)

theorem emitAll_sameCore (es : List Event) (s : State) : SameCore s (emitAll es s) := by
  induction es generalizing s with
  | nil => exact .refl s
  | cons e es ih => exact (emit_sameCore e s).trans (ih (emit e s))

theorem emitAll_trace (es : List Event) (s : State) : (emitAll es s).trace = s.trace ++ es := by
  induction es generalizing s with
  | nil => simp [emitAll]
  | cons e es ih => simp [emitAll, ih]

theorem emitAll_dir_of_isData {es : List Event} (h : ∀ e ∈ es, isData e = true) (s : State) (l : Line) :
    ((emitAll es s).line l).dir = (s.line l).dir := by
  induction es generalizing s with
  | nil => rfl
  | cons e es ih =>
    rw [emitAll, ih (fun x hx => h x (List.mem_cons_of_mem _ hx)), emit_dir_of_isData (h e List.mem_cons_self)]

theorem emitAll_spiEn_of_isData {es : List Event} (h : ∀ e ∈ es, isData e = true) (s : State) :
    (emitAll es s).spiEn = s.spiEn := by
  induction es generalizing s with
  | nil => rfl
  | cons e es ih =>
    rw [emitAll, ih (fun x hx => h x (List.mem_cons_of_mem _ hx)), emit_spiEn_of_isData (h e List.mem_cons_self)]

/-! ### The event lists -/

theorem bitsDown_length {k : Nat} (v : BitVec k) (n : Nat) : (bitsDown v n).length = n := by
  induction n with
  | zero => rfl
  | succ n ih => simp [bitsDown, ih]

theorem isData_of_mem_commitEvents {mode : Mode} {pol : Polarity} {w : Word} {e : Event}
    (h : e ∈ commitEvents mode pol w) : isData e = true := by
  cases mode with
  | burst =>
    simp only [commitEvents, burstEvents, startWrite, endWrite, List.mem_append, List.mem_cons, List.not_mem_nil] at h
    obtain ((h | h) | (h | h | h | h | h)) | h | h | h := h <;> first | exact absurd h id | subst h; rfl
  | bitbang =>
    simp only [commitEvents, bitBangEvents, startWrite, endWrite, bitEvents, List.mem_append, List.mem_flatMap,
      List.mem_cons, List.not_mem_nil] at h
    obtain ((h | h | h) | ⟨b, -, h | h | h | h⟩) | h | h | h := h <;> first | exact absurd h id | subst h; rfl

/-! ### Commit -/

theorem commit_sameCore (s : State) : SameCore s (commit s) := by
  unfold commit
  split
  · exact emitAll_sameCore _ s
  · exact .refl s

theorem commit_of_unclaimed {s : State} (h : s.claimed = false) : commit s = s := by
  simp [commit, h]

theorem commit_trace (s : State) :
    (commit s).trace = s.trace ++ if s.claimed then commitEvents s.mode s.pol s.dbuf else [] := by
  unfold commit
  split <;> simp [emitAll_trace]

theorem commit_dir (s : State) (l : Line) : ((commit s).line l).dir = (s.line l).dir := by
  unfold commit
  split
  · exact emitAll_dir_of_isData (fun _ h => isData_of_mem_commitEvents h) s l
  · rfl

theorem commit_spiEn (s : State) : (commit s).spiEn = s.spiEn := by
  unfold commit
  split
  · exact emitAll_spiEn_of_isData (fun _ h => isData_of_mem_commitEvents h) s
  · rfl

/-- A buffer write leaves its word in `DBUF`. -/
theorem writeBuffer_dbuf (w : Word) (s : State) : (writeBuffer w s).dbuf = w := by
  simp [writeBuffer, (commit_sameCore (s.withDbuf w)).dbuf]

/-! ### The command port -/

theorem nextCommand_eq_some {s : State} {w : CmdWord} {s' : State} (h : s.nextCommand = some (w, s')) :
    s.port = w :: s'.port ∧ s' = s.withPort s'.port := by
  unfold State.nextCommand at h
  split at h
  · cases h
  · rename_i hp
    cases h
    exact ⟨hp, rfl⟩

end Sys2Proof.Machine
end

