-- ==== Sys2Proof/Laws/PerInstr.lean ====
section
/-! SUPPORT. Statements about every command as syntax, one lemma per constructor. -/

namespace Sys2Proof.Laws.EncodesOpcode

open Sys2Proof

/-- The opcode number of each command, from R77's first column. -/
def number : Instr → BitVec 4
  | .setDigits _ _ _ _ => 0x1
  | .setSeg _ => 0x2
  | .clear => 0x3
  | .setInt _ _ _ => 0x4
  | .setFloat _ _ _ => 0x5
  | .setTempC _ _ => 0x6
  | .setHum _ _ => 0x7
  | .setScore _ _ _ _ => 0x8
  | .setIp _ => 0x9
  | .pushBit _ => 0xA
  | .getPix _ => 0xB
  | .beginCmd => 0xC
  | .endCmd => 0xD

/-- The word of a command carries that command's opcode in `CMD[63:60]` (R71). -/
def Statement (i : Instr) : Prop := opcode (encode i) = number i

/-- A field placed below bit 60 does not reach the opcode. -/
theorem opcode_or_place {n lo : Nat} (w : CmdWord) (v : BitVec n) (h : lo + n ≤ 60) :
    opcode (w ||| place v lo) = opcode w := by
  apply BitVec.eq_of_getLsbD_eq
  intro k hk
  have hv : v.getLsbD (60 + k - lo) = false := BitVec.getLsbD_of_ge _ _ (by omega)
  simp [opcode, field, place, hv]

theorem opcode_place (op : BitVec 4) : opcode (place op 60) = op := by
  apply BitVec.eq_of_getLsbD_eq
  intro k hk
  have h1 : 60 + k < 64 := by omega
  simp [opcode, field, place, hk, h1]

theorem opcode_formatN (op : BitVec 4) : opcode (formatN op) = op := opcode_place op

theorem opcode_formatW (op : BitVec 4) (w : Word) : opcode (formatW op w) = op := by
  rw [formatW, opcode_or_place _ _ (by decide), opcode_place]

theorem opcode_formatDigits (op : BitVec 4) (d1 d2 d3 d4 : SegCode) : opcode (formatDigits op d1 d2 d3 d4) = op := by
  rw [formatDigits, opcode_or_place _ _ (by decide), opcode_or_place _ _ (by decide), opcode_or_place _ _ (by decide),
    opcode_or_place _ _ (by decide), opcode_place]

theorem opcode_formatV (op : BitVec 4) (pad : Bool) (aux : BitVec 4) (val : BitVec 32) :
    opcode (formatV op pad aux val) = op := by
  rw [formatV, opcode_or_place _ _ (by decide), opcode_or_place _ _ (by decide), opcode_or_place _ _ (by decide),
    opcode_place]

theorem opcode_formatS (op : BitVec 4) (blink : Bool) (min hour : BitVec 8) (now : BitVec 32) :
    opcode (formatS op blink min hour now) = op := by
  rw [formatS, opcode_or_place _ _ (by decide), opcode_or_place _ _ (by decide), opcode_or_place _ _ (by decide),
    opcode_or_place _ _ (by decide), opcode_place]

theorem opcode_formatB {n : Nat} (op : BitVec 4) (imm : BitVec n) (h : n ≤ 60) : opcode (formatB op imm) = op := by
  rw [formatB, opcode_or_place _ _ (by omega), opcode_place]

theorem setDigits (d1 d2 d3 d4 : SegCode) : Statement (.setDigits d1 d2 d3 d4) :=
  opcode_formatDigits _ _ _ _ _
theorem setSeg (w : Word) : Statement (.setSeg w) := opcode_formatW _ _
theorem clear : Statement .clear := opcode_formatN _
theorem setInt (v : Int) (pad : Bool) (dots : BitVec 4) : Statement (.setInt v pad dots) := opcode_formatV _ _ _ _
theorem setFloat (x : BitVec 32) (p : Nat) (pad : Bool) : Statement (.setFloat x p pad) := opcode_formatV _ _ _ _
theorem setTempC (v : Int) (pad : Bool) : Statement (.setTempC v pad) := opcode_formatV _ _ _ _
theorem setHum (v : Int) (pad : Bool) : Statement (.setHum v pad) := opcode_formatV _ _ _ _
theorem setScore (h m : Nat) (blink : Bool) (now : Nat) : Statement (.setScore h m blink now) := opcode_formatS _ _ _ _ _
theorem setIp (o : Nat) : Statement (.setIp o) := opcode_formatB _ _ (by decide)
theorem pushBit (b : Bool) : Statement (.pushBit b) := opcode_formatB _ _ (by decide)
theorem getPix (i : Nat) : Statement (.getPix i) := opcode_formatB _ _ (by decide)
theorem beginCmd : Statement .beginCmd := opcode_formatN _
theorem endCmd : Statement .endCmd := opcode_formatN _

end Sys2Proof.Laws.EncodesOpcode
end

