-- ==== Sys2Proof/Laws/Step.lean ====
section
/-! SUPPORT. What one step can do, said once. -/

namespace Sys2Proof.Machine

/-- A step that answers a next state either waits with an empty port or runs the command decoded from the port's head. -/
theorem step_next_cases {s t : State} (h : step s = .next t) :
    (s.port = [] ∧ t = s) ∨
      ∃ w rest i, s.port = w :: rest ∧ decode w = .command i ∧ exec i (s.withPort rest) = .next t := by
  unfold step State.nextCommand at h
  cases hp : s.port with
  | nil =>
    simp only [hp] at h
    cases h
    exact .inl ⟨rfl, rfl⟩
  | cons w rest =>
    simp only [hp] at h
    cases hd : decode w with
    | command i =>
      simp only [hd] at h
      exact .inr ⟨w, rest, i, rfl, hd, h⟩
    | reservedOpcode => simp [hd] at h
    | reservedBits => simp [hd] at h

end Sys2Proof.Machine
end

