-- ==== Sys2Proof/Laws/Transport.lean ====
section
/-! SUPPORT. The lines that a commit, a claim and a release leave. -/

namespace Sys2Proof.Machine

theorem emitAll_endWrite (s : State) :
    (emitAll endWrite s).stb = ⟨s.stb.dir, false⟩ ∧ (emitAll endWrite s).data = s.data ∧
      (emitAll endWrite s).clk = s.clk := by
  simp [endWrite, emitAll, emit, applyEvent, State.withLvl]

/-- Bits clocked out leave `CLK` low, the last bit on `DATA`, and `STB` as it was. -/
theorem emitAll_bits (bs : List Bool) (b : Bool) (s : State) :
    (emitAll ((bs ++ [b]).flatMap bitEvents) s).stb = s.stb ∧
      (emitAll ((bs ++ [b]).flatMap bitEvents) s).data = ⟨s.data.dir, b⟩ ∧
      (emitAll ((bs ++ [b]).flatMap bitEvents) s).clk = ⟨s.clk.dir, false⟩ := by
  induction bs generalizing s with
  | nil => simp [bitEvents, emitAll, emit, applyEvent, State.withLvl]
  | cons c bs ih =>
    obtain ⟨h1, h2, h3⟩ := ih (emitAll (bitEvents c) s)
    rw [List.cons_append, List.flatMap_cons, emitAll_append, h1, h2, h3]
    simp [bitEvents, emitAll, emit, applyEvent, State.withLvl]

theorem bitsDown_eq_append {k : Nat} (v : BitVec k) (n : Nat) :
    ∃ bs : List Bool, bitsDown v (n + 1) = bs ++ [v.getLsbD 0] := by
  induction n with
  | zero => exact ⟨[], rfl⟩
  | succ n ih =>
    obtain ⟨bs, h⟩ := ih
    exact ⟨v.getLsbD (n + 1) :: bs, by rw [bitsDown, h, List.cons_append]⟩

theorem emitAll_bitBangEvents (pol : Polarity) (w : Word) (s : State) :
    (emitAll (bitBangEvents pol w) s).stb = ⟨s.stb.dir, false⟩ ∧
      (emitAll (bitBangEvents pol w) s).data = ⟨s.data.dir, w.getLsbD 0 ^^ (inv pol).getLsbD 0⟩ ∧
      (emitAll (bitBangEvents pol w) s).clk = ⟨s.clk.dir, false⟩ := by
  obtain ⟨bs, h⟩ := bitsDown_eq_append w 31
  have hb := emitAll_bits (bs.map (· ^^ (inv pol).getLsbD 0)) (w.getLsbD 0 ^^ (inv pol).getLsbD 0)
    (emitAll (startWrite .bitbang) s)
  rw [show (bs.map (· ^^ (inv pol).getLsbD 0) ++ [w.getLsbD 0 ^^ (inv pol).getLsbD 0]).flatMap bitEvents
    = (bitsDown w 32).flatMap (fun b => bitEvents (b ^^ (inv pol).getLsbD 0)) by
      rw [h]; simp [List.flatMap_append, List.flatMap_map]] at hb
  obtain ⟨h1, h2, h3⟩ := hb
  obtain ⟨e1, e2, e3⟩ := emitAll_endWrite (emitAll ((bitsDown w 32).flatMap
    (fun b => bitEvents (b ^^ (inv pol).getLsbD 0))) (emitAll (startWrite .bitbang) s))
  rw [bitBangEvents, emitAll_append, emitAll_append, e1, e2, e3, h1, h2, h3]
  simp [startWrite, emitAll, emit, applyEvent, State.withLvl]

theorem emitAll_burstEvents (pol : Polarity) (w : Word) (s : State) :
    (emitAll (burstEvents pol w) s).stb = ⟨s.stb.dir, false⟩ ∧
      (emitAll (burstEvents pol w) s).data.dir = s.data.dir ∧
      (emitAll (burstEvents pol w) s).clk = ⟨s.clk.dir, false⟩ := by
  simp [burstEvents, startWrite, endWrite, emitAll, emit, applyEvent, State.withLvl]

/-- The lines a commit on claimed lines leaves (R169). -/
theorem commit_lines {s : State} (h : s.claimed = true) :
    (commit s).stb = ⟨s.stb.dir, false⟩ ∧ (commit s).clk = ⟨s.clk.dir, false⟩ ∧ (commit s).data.dir = s.data.dir ∧
      (s.mode = .bitbang → (commit s).data.lvl = (s.dbuf.getLsbD 0 ^^ (inv s.pol).getLsbD 0)) := by
  unfold commit commitEvents
  rw [if_pos h]
  cases hm : s.mode with
  | bitbang =>
    obtain ⟨h1, h2, h3⟩ := emitAll_bitBangEvents s.pol s.dbuf s
    exact ⟨h1, h3, by rw [h2], fun _ => by rw [h2]⟩
  | burst =>
    obtain ⟨h1, h2, h3⟩ := emitAll_burstEvents s.pol s.dbuf s
    exact ⟨h1, h3, h2, fun hc => by cases hc⟩

/-- The lines a claim leaves (R164): all driven low. -/
theorem claim_line (s : State) (l : Line) : (claim s).line l = ⟨.output, false⟩ := by
  cases hm : s.mode <;> cases l <;>
    simp [claim, claimEvents, hm, emitAll, emit, applyEvent, State.withLvl, State.withDir]

/-- The lines a release leaves (R166): all undriven, at level 0. -/
theorem release_line (s : State) (l : Line) : (release s).line l = ⟨.input, false⟩ := by
  cases l <;> simp [release, releaseEvents, emitAll, emit, applyEvent, State.withLvl, State.withDir]

end Sys2Proof.Machine
end

