-- ==== Sys2Proof/Tests/Slice0.lean ====
section
/-! SUPPORT. Small tests: words and results taken from the tables of spec 95_test_vectors.md and the examples of the rules,
the ill-formed terms WellFormed refuses, and a witness for the hypotheses of each statement that has some. -/

namespace Sys2Proof.Tests

open Sys2Proof Sys2Proof.Machine

/-- An instance with its lines as after BEGIN, and a buffer of one's choice. -/
def claimedWith (mode : Mode) (pol : Polarity) (w : Word) : State :=
  { State.construct mode pol with
    dbuf := w, claimed := true, spiEn := mode == .burst, stb := ⟨.output, false⟩, data := ⟨.output, false⟩,
    clk := ⟨.output, false⟩ }

/-- What the next state shows, if there is one. -/
def after {α : Type} (o : Host.Outcome State Fault Refusal) (f : State → α) : Option α :=
  match o with
  | .next t => some (f t)
  | .fault _ => none
  | .refused _ => none

/-! ### WellFormed refuses (R80) -/

theorem test_wf_setInt_high : WellFormed (.setInt 2147483648 false 0) = false := by decide
theorem test_wf_setInt_low : WellFormed (.setInt (-2147483649) false 0) = false := by decide
theorem test_wf_setFloat : WellFormed (.setFloat 0 16 false) = false := by decide
theorem test_wf_setTempC : WellFormed (.setTempC (-2147483649) false) = false := by decide
theorem test_wf_setHum : WellFormed (.setHum 2147483648 false) = false := by decide
theorem test_wf_setScore_hour : WellFormed (.setScore 256 0 false 0) = false := by decide
theorem test_wf_setScore_minute : WellFormed (.setScore 0 256 false 0) = false := by decide
theorem test_wf_setScore_now : WellFormed (.setScore 0 0 false 4294967296) = false := by decide
theorem test_wf_setIp : WellFormed (.setIp 256) = false := by decide
theorem test_wf_getPix : WellFormed (.getPix 32) = false := by decide

/-! ### Every command's decoding, from a word of R77's encoding -/

theorem test_decode_setDigits : decode 0x10000000FC60DAF2 = .command (.setDigits 0xFC 0x60 0xDA 0xF2) := by decide
theorem test_decode_setSeg : decode 0x20000000A5C3F00F = .command (.setSeg 0xA5C3F00F) := by decide
theorem test_decode_clear : decode 0x3000000000000000 = .command .clear := by decide
theorem test_decode_setInt : decode 0x40000014FFFFFFFB = .command (.setInt (-5) true 0b0100) := by decide
theorem test_decode_setFloat : decode 0x5000001F40490FD0 = .command (.setFloat 0x40490FD0 15 true) := by decide
theorem test_decode_setTempC : decode 0x60000010FFFFFFFB = .command (.setTempC (-5) true) := by decide
theorem test_decode_setHum : decode 0x7000001000000007 = .command (.setHum 7 true) := by decide
theorem test_decode_setScore : decode 0x8001220CFFFFFED7 = .command (.setScore 12 34 true 4294966999) := by decide
theorem test_decode_setIp : decode 0x900000000000002A = .command (.setIp 42) := by decide
theorem test_decode_pushBit : decode 0xA000000000000001 = .command (.pushBit true) := by decide
theorem test_decode_getPix : decode 0xB000000000000018 = .command (.getPix 24) := by decide
theorem test_decode_begin : decode 0xC000000000000000 = .command .beginCmd := by decide
theorem test_decode_end : decode 0xD000000000000000 = .command .endCmd := by decide

/-- The reserved words of spec 95 section 2.10. -/
theorem test_decode_reserved :
    [0x0000000000000000, 0xE000000000000000, 0xF000000000000000].map decode = List.replicate 3 .reservedOpcode ∧
    [0x3000000000000001, 0x1000000100000000, 0x4000002000000000, 0x6000000100000005, 0x8002000000000000,
      0xA000000000000002, 0xB000000000000020].map decode = List.replicate 7 .reservedBits := by decide

theorem test_decodeTableWord : decodeTableWord 64 0xB000000000000018 = some (.getPix 24) := by decide

/-! ### Each command's result, from the tables of spec 95 sections 2.1 to 2.7 -/

theorem test_setDigits : after (exec (.setDigits 0xFC 0x60 0xDA 0xF2) .reset) (·.dbuf) = some 0xFC60DAF2 := by decide
theorem test_setSeg : after (exec (.setSeg 0xA5C3F00F) .reset) (·.dbuf) = some 0xA5C3F00F := by decide
theorem test_clear :
    after (exec .clear (claimedWith .burst .ca 0x12345678)) (fun t => (t.dbuf, t.trace)) =
      some (0, [.lvl .stb false, .spiByte 0xFF, .spiByte 0xFF, .spiByte 0xFF, .spiByte 0xFF, .lvl .stb true,
        .lvl .stb false]) := by decide +kernel
theorem test_setInt_sign_overwrites : after (exec (.setInt (-1000) false 0) .reset) (·.dbuf) = some 0x02FCFCFC := by
  decide +kernel
theorem test_setInt_most_negative :
    after (exec (.setInt (-2147483648) false 0) .reset) (·.dbuf) = some 0x02BE66FE := by decide +kernel
theorem test_setFloat_pi : after (exec (.setFloat 0x40490FD0 2 false) .reset) (·.dbuf) = some 0x00F36066 := by
  decide +kernel
theorem test_setFloat_huge : after (exec (.setFloat 0x7149F2CA 2 false) .reset) (·.dbuf) = some 0xF2DBBE66 := by
  decide +kernel
theorem test_setTempC : after (exec (.setTempC (-15) false) .reset) (·.dbuf) = some 0x02B6C69C := by decide +kernel
theorem test_setHum : after (exec (.setHum 100 false) .reset) (·.dbuf) = some 0xFCFCC63A := by decide +kernel
theorem test_setScore_on : after (exec (.setScore 12 34 true 4294967000) .reset) (·.dbuf) = some 0x60DBF266 := by
  decide +kernel
theorem test_setScore_off : after (exec (.setScore 9 5 true 500) .reset) (·.dbuf) = some 0xFCF6FCB6 := by decide +kernel
theorem test_setIp : after (exec (.setIp 100) .reset) (·.dbuf) = some 0x1160FCFC := by decide +kernel
theorem test_pushBit :
    after (exec (.pushBit true) { State.reset with dbuf := 0x02B6C69C }) (·.dbuf) = some 0x056D8D39 := by decide +kernel
theorem test_getPix :
    after (exec (.getPix 24) { State.reset with dbuf := 0x110066DA }) (fun t => (t.rdata, t.dbuf, t.trace)) =
      some (true, 0x110066DA, []) := by decide +kernel
theorem test_begin_burst :
    after (exec .beginCmd (State.construct .burst)) (fun t => (t.trace, t.claimed, t.spiEn, t.data, t.clk, t.stb)) =
      some ([.spiInit, .dir .stb .output, .lvl .stb false], true, true, ⟨.output, false⟩, ⟨.output, false⟩,
        ⟨.output, false⟩) := by decide +kernel
theorem test_end :
    after (exec .endCmd (claimedWith .burst .ca 7)) (fun t => (t.trace.length, t.claimed, t.spiEn, t.dbuf, t.clk)) =
      some (6, false, false, 7, ⟨.input, false⟩) := by decide +kernel

/-! ### Encoder and float readings (spec 95 section 2.3, R112) -/

theorem test_float_rounds : floatScaleSingle 0x3F333333 1 = 7 ∧ floatScaleSingle 0x3C23D70A 2 = 1 := by decide +kernel
theorem test_float_iterated : floatScaleIterated 0x3C23D70A 2 = 0 ∧ floatScaleIterated 0x3F333333 1 = 7 := by
  decide +kernel
theorem test_float_exact : floatScaleExact 0x3C23D70A 2 = 0 ∧ floatScaleExact 0x3F333333 1 = 6 := by decide +kernel
theorem test_float_overflow : floatScaleSingle 0x7F7FC99E 1 = 0 ∧ floatScaleSingle 0x7FC00000 1 = 0 := by decide +kernel

/-! ### Transport (spec 95 section 2.8) -/

theorem test_commit_bitbang :
    after (exec (.setIp 42) (claimedWith .bitbang .ca 0))
      (fun t => (t.trace.length, t.data.lvl, (t.trace.drop 2).take 3)) =
      some (100, true, [.lvl .data true, .lvl .clk true, .lvl .clk false]) := by decide +kernel
theorem test_commit_unclaimed : after (exec (.setIp 42) .reset) (·.trace) = some [] := by decide +kernel
theorem test_receiver :
    (receive (fun _ _ => false) (commitEvents .burst .ca 0x110066DA) (claimedWith .burst .ca 0) ⟨0, 0⟩).latch
      = 0xEEFF9925 := by decide +kernel

/-! ### The step and the host's interface -/

theorem test_step_refuses : step (State.reset.present 0xE000000000000000) = .refused (.reservedOpcode 0xE000000000000000) :=
  rfl
theorem test_step_waits : step State.reset = .next State.reset := rfl
theorem test_withFetchWord :
    after (step (State.reset.withFetchWord 64 0x20000000A5C3F00F)) (fun t => (t.dbuf, t.port)) =
      some (0xA5C3F00F, []) := by decide

/-! ### The assembler (R80 to R82) -/

theorem test_assemble_glyph_dp :
    assemble glyphRom ⟨"SETDIGITS", [.glyph (.num 9) true, .glyph .blank false, .number 255, .glyph .c false]⟩
      = some 0x10000000F700FF9C := by decide +kernel
theorem test_assemble_float :
    assemble glyphRom ⟨"SETFLOAT", [.real ⟨false, 314159, -5⟩, .number 2]⟩ = some 0x5000000240490FD0 := by decide +kernel
/-- The first value outside each range: none is wrapped. -/
theorem test_assemble_refuses :
    [assemble glyphRom ⟨"SETINT", [.number 2147483648]⟩, assemble glyphRom ⟨"SETSEG", [.number 4294967296]⟩,
      assemble glyphRom ⟨"SETIP", [.number 256]⟩, assemble glyphRom ⟨"GETPIX", [.number 32]⟩,
      assemble glyphRom ⟨"SETINT", [.number 0, .number 0, .number 16]⟩, assemble glyphRom ⟨"PUSHBIT", [.number 2]⟩]
      = List.replicate 6 none := by decide +kernel

/-! ### Witnesses: a state and operands that meet the hypotheses of each statement that has some -/

theorem claimedWith_lines (mode : Mode) (pol : Polarity) (w : Word) : LinesFollowClaim (claimedWith mode pol w) := by
  constructor
  · intro _; rfl
  · intro _; rfl
  · intro _; rfl
  · intro _; cases mode <;> rfl
  · intro h; cases h
  · intro h; cases h

theorem witness_DecodeOfEncode : WellFormed (.setScore 255 255 true 4294967295) = true := by decide
theorem witness_EncodeOfDecode : decode 0x6000001080000000 = .command (.setTempC (-2147483648) true) := by decide
theorem witness_ReservedOpcode : Reserved 0xF000000000000000 ∧ (0xF000000000000000#64 >>> 60).toNat = 0xF := by
  constructor
  · exact trivial
  · decide
theorem witness_ReservedBits : Reserved 0xB000000000000020 ∧ (0xB000000000000020#64 >>> 60).toNat = 0xB := by
  constructor
  · show (0xB000000000000020#64).extractLsb' 5 55 ≠ 0
    decide
  · decide
theorem witness_NotReserved : ¬ Reserved 0xB00000000000001F := by
  show ¬ (0xB00000000000001F#64).extractLsb' 5 55 ≠ 0
  decide
theorem witness_StepRuns :
    (State.reset.present 0xC000000000000000).port = [0xC000000000000000] ∧
      decode 0xC000000000000000 = .command .beginCmd := by decide
theorem witness_FiniteSequences :
    ∀ w ∈ ({ State.reset with port := [0xB00000000000001F] } : State).port, ¬ Reserved w := by
  intro w hw
  rw [List.mem_singleton.mp hw]
  exact witness_NotReserved

theorem witness_mask_setDigits : (0x10000000FC60DAF2#64) &&& 0xFFFFFFFF00000000 = 0x1000000000000000 := by decide
theorem witness_mask_setSeg : (0x20000000FFFFFFFF#64) &&& 0xFFFFFFFF00000000 = 0x2000000000000000 := by decide
theorem witness_mask_clear : (0x3000000000000000#64) &&& 0xFFFFFFFFFFFFFFFF = 0x3000000000000000 := by decide
theorem witness_mask_setInt : (0x4000001FFFFFFFFF#64) &&& 0xFFFFFFE000000000 = 0x4000000000000000 := by decide
theorem witness_mask_setFloat : (0x5000001FFFFFFFFF#64) &&& 0xFFFFFFE000000000 = 0x5000000000000000 := by decide
theorem witness_mask_setTempC : (0x60000010FFFFFFFF#64) &&& 0xFFFFFFEF00000000 = 0x6000000000000000 := by decide
theorem witness_mask_setHum : (0x70000010FFFFFFFF#64) &&& 0xFFFFFFEF00000000 = 0x7000000000000000 := by decide
theorem witness_mask_setScore : (0x8001FFFFFFFFFFFF#64) &&& 0xFFFE000000000000 = 0x8000000000000000 := by decide
theorem witness_mask_setIp : (0x90000000000000FF#64) &&& 0xFFFFFFFFFFFFFF00 = 0x9000000000000000 := by decide
theorem witness_mask_pushBit : (0xA000000000000001#64) &&& 0xFFFFFFFFFFFFFFFE = 0xA000000000000000 := by decide
theorem witness_mask_getPix : (0xB00000000000001F#64) &&& 0xFFFFFFFFFFFFFFE0 = 0xB000000000000000 := by decide
theorem witness_mask_begin : (0xC000000000000000#64) &&& 0xFFFFFFFFFFFFFFFF = 0xC000000000000000 := by decide
theorem witness_mask_end : (0xD000000000000000#64) &&& 0xFFFFFFFFFFFFFFFF = 0xD000000000000000 := by decide

theorem witness_SetFloat_infinity : (0x7F800000#32).extractLsb' 23 8 = 0xFF := by decide
theorem witness_Clear_rom : State.reset.glyphs = glyphRom := rfl
theorem witness_lit_phase : colon .even true 4294967295 = true ∧ colon .even true 4294966999 = false := by decide
theorem witness_SerialByte :
    (claimedWith .burst .ca 0).clk = ⟨.output, false⟩ ∧ (claimedWith .burst .ca 0).data.dir = .output := by decide
theorem witness_Emit_same_level : (State.reset.line .data).lvl = false := rfl
/-- For the statements on a commit of claimed lines, in burst mode. -/
theorem witness_claimed_burst :
    writesBuffer (.setIp 255) = true ∧ (claimedWith .burst .ca 3).claimed = true ∧
      LinesFollowClaim (claimedWith .burst .ca 3) := ⟨rfl, rfl, claimedWith_lines _ _ _⟩
/-- For the statements on a commit of claimed lines, bit-banged. -/
theorem witness_claimed_bitbang :
    writesBuffer .clear = true ∧ (claimedWith .bitbang .cc 3).claimed = true ∧
      LinesFollowClaim (claimedWith .bitbang .cc 3) := ⟨rfl, rfl, claimedWith_lines _ _ _⟩
theorem witness_EqualBuffers :
    after (exec .clear State.reset) (·.dbuf) = some 0 ∧ after (exec (.setSeg 0) State.reset) (·.dbuf) = some 0 := by decide
/-- For the statements on a step: a state that meets the invariant and steps. -/
theorem witness_step_keeps :
    LinesFollowClaim (claimedWith .bitbang .ca 0) ∧
      after (step ((claimedWith .bitbang .ca 0).present 0xD000000000000000)) (·.claimed) = some false :=
  ⟨claimedWith_lines _ _ _, by decide +kernel⟩
theorem witness_replay : LinesReplayTrace State.reset := ⟨0, fun _ => rfl, rfl⟩
/-- For the statements on what an executed command changes. -/
theorem witness_changes :
    after (exec .beginCmd State.reset) (fun t => (t.claimed, decide (t.trace = []))) = some (true, false) ∧
      after (exec (.getPix 3) { State.reset with dbuf := 8 }) (·.rdata) = some true ∧
      after (exec (.setSeg 9) State.reset) (·.dbuf) = some 9 := by decide +kernel
theorem witness_FormatField : (formatField glyphRom (-5) 4 false)[4 - 1 - 1]? = some 0x02 := by decide +kernel
theorem witness_DistinctGlyphs : DistinctGlyphs State.reset.glyphs := by
  show (glyphRom.blank :: glyphRom.minus :: glyphRom.numeral.toList).Nodup
  decide
theorem witness_Rounding : roundBinary32 10 = some 10 ∧ binary32Value 0x41200000 = some 10 := by decide +kernel
/-- A positive and a negative product, and one that overflows. -/
theorem witness_DefaultScaling :
    binary32Value 0xBFC00000 = some (-3 / 2) ∧ roundBinary32 (10 ^ 1) = some 10 ∧ roundBinary32 (-3 / 2 * 10) = some (-15) ∧
      roundBinary32 (3 / 2 * 10) = some 15 ∧ (binary32Value 0x7F7FC99E).bind (fun v => roundBinary32 (v * 10)) = none := by
  decide +kernel
/-- The largest operand that does not round to an infinity lies below the midpoint. -/
theorem witness_Overflow :
    roundBinary32 (2 ^ 128 - 2 ^ 103) = none ∧ roundBinary32 (2 ^ 128 - 2 ^ 103 - 1) = some (2 ^ 128 - 2 ^ 104) := by
  decide +kernel
theorem witness_ExactProducts :
    binary32Value 0x3FC00000 = some (3 / 2) ∧ binary32Value 0x41700000 = some (3 / 2 * 10 ^ 1) ∧
      binary32Value 0xFF800000 = none := by decide +kernel
theorem witness_Assembled : assemble glyphRom ⟨"GETPIX", [.number 31]⟩ = some 0xB00000000000001F := by decide +kernel
theorem witness_Literals :
    (15 : Nat) ≤ 15 ∧
      roundBinary32 (if true then -(decimalMagnitude ⟨true, 15, -1⟩) else decimalMagnitude ⟨true, 15, -1⟩)
        = some (-3 / 2) := by decide +kernel
/-- A chain of two rounded products for iterated scaling, and a finite datum for exact scaling. -/
theorem witness_Iterated :
    binary32Value 0x3FC00000 = some (3 / 2) ∧ roundBinary32 (3 / 2 * 10) = some 15 ∧ roundBinary32 (15 * 10) = some 150 := by
  decide +kernel
theorem witness_WritesCode :
    WritesCode glyphRom (.number 255) 0xFF ∧ WritesCode glyphRom (.glyph (.num 9) false) 0xF6 ∧
      WritesCode glyphRom (.glyph (.num 9) true) 0xF7 ∧ WritesCode glyphRom (.glyph .c false) 0x9C :=
  ⟨.number 255 (by decide), .num 9, .plusDP (.num 9) 0xF6 (.num 9), .c⟩
/-- Operands at the ends of their ranges (R80). -/
theorem test_assemble_boundaries :
    assemble glyphRom ⟨"SETINT", [.number (-2147483648), .number 1, .number 15]⟩ = some 0x4000001F80000000 ∧
      assemble glyphRom ⟨"SETSCORE", [.number 9, .number 5, .number 1, .number 500]⟩ = some 0x80010509000001F4 := by
  decide +kernel
/-- For the clauses on the lines and the serial engine: BEGIN in burst mode, and a commit that moves a level. -/
theorem witness_line_writers :
    after (exec .beginCmd (State.construct .burst)) (fun t => (t.spiEn, t.stb.dir)) = some (true, .output) ∧
      after (exec (.setSeg 1) (claimedWith .bitbang .cc 0)) (·.data.lvl) = some true := by decide +kernel

end Sys2Proof.Tests
end

