-- ==== Sys2Proof/Proofs/PseudoInstructions.lean ====
section
/-! PROOFS. The pseudo-instructions of R82. A line and its expansion stand for one command, since an operand written as
the number 0 is read as the value that an omitted one stands for; so they assemble to one word. -/

namespace Sys2Proof.Machine

/-- The word of a line depends on its command alone. -/
theorem assemble_eq_of_commandOf_eq {gl : Glyphs} {l l' : AsmLine} (h : commandOf gl l = commandOf gl l') :
    assemble gl l = assemble gl l' := by
  rw [assemble, assemble, h]

section DefaultOperands
variable (gl : Glyphs)

theorem commandOf_setInt_default_dots (v pad : AsmOperand) :
    commandOf gl ⟨"SETINT", [v, pad]⟩ = commandOf gl ⟨"SETINT", [v, pad, .number 0]⟩ := rfl

theorem commandOf_setInt_default_pad (v : AsmOperand) :
    commandOf gl ⟨"SETINT", [v]⟩ = commandOf gl ⟨"SETINT", [v, .number 0]⟩ := rfl

theorem commandOf_setFloat_default_pad (x p : AsmOperand) :
    commandOf gl ⟨"SETFLOAT", [x, p]⟩ = commandOf gl ⟨"SETFLOAT", [x, p, .number 0]⟩ := rfl

theorem commandOf_setTempC_default_pad (v : AsmOperand) :
    commandOf gl ⟨"SETTEMPC", [v]⟩ = commandOf gl ⟨"SETTEMPC", [v, .number 0]⟩ := rfl

theorem commandOf_setHum_default_pad (v : AsmOperand) :
    commandOf gl ⟨"SETHUM", [v]⟩ = commandOf gl ⟨"SETHUM", [v, .number 0]⟩ := rfl

theorem commandOf_setScore_default_blink_now (h m : AsmOperand) :
    commandOf gl ⟨"SETSCORE", [h, m]⟩ = commandOf gl ⟨"SETSCORE", [h, m, .number 0, .number 0]⟩ := rfl

end DefaultOperands

theorem commandOf_blankAll (gl : Glyphs) :
    commandOf gl ⟨"BLANKALL", []⟩ = some (.setDigits gl.blank gl.blank gl.blank gl.blank) := rfl

theorem commandOf_setDigits_blanks (gl : Glyphs) :
    commandOf gl ⟨"SETDIGITS", [.glyph .blank false, .glyph .blank false, .glyph .blank false, .glyph .blank false]⟩ =
      some (.setDigits gl.blank gl.blank gl.blank gl.blank) := rfl

/-- SETDIGITS of four blanks writes the buffer that CLEAR writes (R203). -/
theorem exec_setDigits_blanks (s : State) :
    exec (.setDigits s.glyphs.blank s.glyphs.blank s.glyphs.blank s.glyphs.blank) s = exec .clear s := rfl

/-- Settles O49: each line stands for the command of its expansion, and BLANKALL for the SETDIGITS of four blanks, which
runs as CLEAR does. -/
theorem pseudoInstructionsExpand : Obligations.PseudoInstructionsExpand := by
  refine ⟨?setInt, ?setIntPad, ?setFloat, ?setTempC, ?setHum, ?setScore, ?blankAll, ?blankAllRunsAsClear⟩
  case setInt =>
    exact fun gl v => assemble_eq_of_commandOf_eq
      ((commandOf_setInt_default_pad gl v).trans (commandOf_setInt_default_dots gl v (.number 0)))
  case setIntPad =>
    exact fun gl v pad => assemble_eq_of_commandOf_eq (commandOf_setInt_default_dots gl v pad)
  case setFloat =>
    exact fun gl x p => assemble_eq_of_commandOf_eq (commandOf_setFloat_default_pad gl x p)
  case setTempC =>
    exact fun gl v => assemble_eq_of_commandOf_eq (commandOf_setTempC_default_pad gl v)
  case setHum =>
    exact fun gl v => assemble_eq_of_commandOf_eq (commandOf_setHum_default_pad gl v)
  case setScore =>
    exact fun gl h m => assemble_eq_of_commandOf_eq (commandOf_setScore_default_blink_now gl h m)
  case blankAll =>
    exact fun gl => assemble_eq_of_commandOf_eq
      ((commandOf_blankAll gl).trans (commandOf_setDigits_blanks gl).symm)
  case blankAllRunsAsClear =>
    exact fun s => ⟨_, commandOf_blankAll s.glyphs, exec_setDigits_blanks s⟩

end Sys2Proof.Machine
end

