-- ==== Sys2Proof/Proofs/EncoderValues.lean ====
section
/-! PROOFS. Encoder values that the spec tabulates: the field of zero (R106), the dot mask (R113) and the default glyph
ROM (R102). -/

namespace Sys2Proof.Machine

/-! ### The field of zero -/

theorem formatField_of_nonneg (gl : Glyphs) {v : Int} (hv : 0 ≤ v) (W : Nat) (pad : Bool) :
    formatField gl v W pad = (fieldLoop gl pad W v.natAbs (Vector.replicate W gl.blank)).2 :=
  if_neg (Int.not_lt.mpr hv)

/-- Unpadded, the loop reaches the rightmost place alone, since no power of 10 is at most 0; padded, it reaches every
place. What it does not reach stays blank. -/
theorem formatField_zero_getElem? (gl : Glyphs) (pad : Bool) {W k : Nat} (hk : k < W) :
    (formatField gl 0 W pad)[k]? = some (if pad = true ∨ k + 1 = W then numeralOf gl 0 else gl.blank) := by
  have spec := fieldLoop_spec gl pad W 0 (Vector.replicate W gl.blank) (by omega) le_rfl
  have reach := spec.reach k hk
  have pow_pos : 0 < 10 ^ (W - 1 - k) := Nat.pow_pos (by decide)
  rw [formatField_of_nonneg gl le_rfl, Int.natAbs_zero]
  split
  case isTrue written =>
    rw [spec.digits k (reach.mpr (written.imp_right fun last => .inl (by omega))) hk, Nat.zero_div]
  case isFalse unwritten =>
    have left : k < (fieldLoop gl pad W 0 (Vector.replicate W gl.blank)).1 := by
      by_contra reached
      obtain hpad | last | small := reach.mp (Nat.not_lt.mp reached)
      · exact unwritten (.inl hpad)
      · exact unwritten (.inr (by omega))
      · omega
    rw [spec.others k (.inl left), Vector.getElem?_replicate, if_pos hk]

/-- Without padding, at every width but 0. -/
theorem formatField_zero_unpadded (gl : Glyphs) {W : Nat} (hW : 0 < W) :
    (formatField gl 0 W false).toList = List.replicate (W - 1) gl.blank ++ [numeralOf gl 0] := by
  have shown (k : Nat) (hk : k < W) := (Vector.getElem?_eq_some_iff.mp (formatField_zero_getElem? gl false hk)).2
  apply List.ext_getElem
  · simp [Nat.sub_add_cancel hW]
  · intro k hk _
    have hk : k < W := by simpa using hk
    obtain rfl | before : W = k + 1 ∨ k < W - 1 := by omega
    · simp [shown k hk]
    · have not_last : k + 1 ≠ W := by omega
      simp [shown k hk, before, not_last]

/-- With padding, at every width. -/
theorem formatField_zero_padded (gl : Glyphs) (W : Nat) :
    (formatField gl 0 W true).toList = List.replicate W (numeralOf gl 0) := by
  refine List.eq_replicate_iff.mpr ⟨Vector.length_toList, fun code hcode => ?_⟩
  obtain ⟨k, hk, rfl⟩ := Vector.mem_iff_getElem.mp (Vector.mem_toList_iff.mp hcode)
  simpa [hk] using formatField_zero_getElem? gl true hk

/-- Settles O38: the field of zero at the widths of the value formats. -/
theorem zeroFillsWithBlankOrZero : Obligations.ZeroFillsWithBlankOrZero :=
  fun gl W hW => ⟨formatField_zero_unpadded gl (by omega), formatField_zero_padded gl W⟩

/-! ### The dot mask -/

theorem dotMaskFor_of_lt {p : Nat} (hp : p < 4) : dotMaskFor p = BitVec.twoPow 4 p :=
  if_pos hp

theorem dotMaskFor_of_ge {p : Nat} (hp : 4 ≤ p) : dotMaskFor p = 0 :=
  if_neg (Nat.not_lt.mpr hp)

/-- Settles O41: below 4 the mask is bit `p` alone, which index `3 - p` carries. -/
theorem dotMaskOfThePrecision : Obligations.DotMaskOfThePrecision := by
  refine ⟨fun p k hp hk => ?_, fun p hp => dotMaskFor_of_ge hp⟩
  have same_place : p = 3 - k ↔ k = 3 - p := by omega
  simp [dotMaskFor_of_lt hp, hp, BitVec.getLsbD_twoPow, same_place]

/-! ### The default glyph ROM -/

theorem glyphRom_numeral_codes :
    (List.range 10).map (numeralOf glyphRom) = [0xFC, 0x60, 0xDA, 0xF2, 0x66, 0xB6, 0xBE, 0xE0, 0xFE, 0xF6] := by
  decide

/-- Settles O42: the code column first, then the segments that each of its codes lights. -/
theorem glyphRomLightsItsSegments : Obligations.GlyphRomLightsItsSegments := by
  unfold Obligations.GlyphRomLightsItsSegments
  intro segments
  refine ⟨?numeralSegments, ?otherSegments, glyphRom_numeral_codes, rfl⟩
  case numeralSegments =>
    have by_code : (List.range 10).map (segments ∘ numeralOf glyphRom) =
        ((List.range 10).map (numeralOf glyphRom)).map segments := List.map_map.symm
    refine by_code.trans ?_
    rw [glyphRom_numeral_codes]
    decide
  case otherSegments =>
    decide

end Sys2Proof.Machine
end

