-- ==== Sys2Proof/Proofs/SerialByte.lean ====
section
/-! PROOFS. What a receiver sees of bits clocked out one by one (R157, R170), and that a serial byte is its eight bits
clocked out (R153). -/

namespace Sys2Proof.Machine

/-! ### The pins after a level request (R151) -/

/-- A pin carries the level of its line, if it carries one. -/
theorem lvl_of_pin_eq_some {s : State} {l : Line} {v : Bool} (h : s.pin l = some v) : (s.line l).lvl = v := by
  cases hd : (s.line l).dir with
  | input => simp [pin_of_input hd] at h
  | output => simpa [pin_of_output hd] using h

theorem emit_lvl_line_same (l : Line) (v : Bool) (s : State) :
    (emit (.lvl l v) s).line l = ⟨(s.line l).dir, v⟩ := by
  simp [emit, applyEvent, State.withLvl]

theorem emit_lvl_line_of_ne {l k : Line} (h : l ≠ k) (v : Bool) (s : State) :
    (emit (.lvl l v) s).line k = s.line k := by
  simp [emit, applyEvent, State.withLvl, h]

theorem emit_lvl_pin_same {l : Line} {s : State} (h : (s.line l).dir = .output) (v : Bool) :
    (emit (.lvl l v) s).pin l = some v := by
  simp [State.pin, emit_lvl_line_same, h]

theorem emit_lvl_pin_of_ne {l k : Line} (h : l ≠ k) (v : Bool) (s : State) :
    (emit (.lvl l v) s).pin k = s.pin k := by
  simp only [State.pin, emit_lvl_line_of_ne h]

/-! ### Rising edges -/

theorem rises_of_pin_eq {s t : State} {l : Line} (h : t.pin l = s.pin l) : rises s t l = false := by
  rw [rises, h]
  cases s.pin l with
  | none => rfl
  | some v => cases v <;> rfl

theorem rises_of_lvl_false {s t : State} {l : Line} (h : (t.line l).lvl = false) : rises s t l = false := by
  have not_high : t.pin l ≠ some true := fun high => by simp [lvl_of_pin_eq_some high] at h
  simp [rises, not_high]

/-- A request on one line raises no other. -/
theorem rises_emit_lvl_of_ne {l k : Line} (h : l ≠ k) (v : Bool) (s : State) :
    rises s (emit (.lvl l v) s) k = false :=
  rises_of_pin_eq (emit_lvl_pin_of_ne h v s)

/-- A request for level 0 raises no line. -/
theorem rises_emit_lvl_false (l k : Line) (s : State) : rises s (emit (.lvl l false) s) k = false := by
  by_cases hk : l = k
  · subst hk
    exact rises_of_lvl_false (by rw [emit_lvl_line_same])
  · exact rises_emit_lvl_of_ne hk false s

/-! ### The signals of a level request -/

section
variable (board : Nat → Line → Bool)

theorem signalsOf_lvl_false (l : Line) (s : State) : signalsOf board s (.lvl l false) = [] := by
  simp [signalsOf, rises_emit_lvl_false]

theorem signalsOf_lvl_data (v : Bool) (s : State) : signalsOf board s (.lvl .data v) = [] := by
  simp [signalsOf, rises_emit_lvl_of_ne]

/-- The rising edge of `CLK`: the receiver reads the driven `DATA`. -/
theorem signalsOf_lvl_clk_true {s : State} {v : Bool} (hclk : s.clk = ⟨.output, false⟩)
    (hdata : s.data = ⟨.output, v⟩) : signalsOf board s (.lvl .clk true) = [.bit v] := by
  have low : s.pin .clk = some false := by simp [State.pin, hclk]
  have high : (emit (.lvl .clk true) s).pin .clk = some true := emit_lvl_pin_same (by simp [hclk]) true
  have data : (emit (.lvl .clk true) s).pin .data = some v := by
    rw [emit_lvl_pin_of_ne (by decide)]
    simp [State.pin, hdata]
  have up : rises s (emit (.lvl .clk true) s) .clk = true := by simp [rises, low, high]
  simp [signalsOf, up, rises_emit_lvl_of_ne, pinReads, data]

/-! ### Bits clocked out (R157) -/

theorem observe_append (es fs : List Event) (s : State) :
    observe board (es ++ fs) s = observe board es s ++ observe board fs (emitAll es s) := by
  induction es generalizing s with
  | nil => rfl
  | cons e es ih => rw [List.cons_append, observe, ih, observe, List.append_assoc, emitAll]

/-- On driven lines with the clock idle, one bit clocked out is one bit seen. -/
theorem observe_bitEvents {s : State} (hclk : s.clk = ⟨.output, false⟩) (hdata : s.data.dir = .output) (v : Bool) :
    observe board (bitEvents v) s = [.bit v] := by
  have presented : (emit (.lvl .data v) s).data = ⟨.output, v⟩ := by
    simpa [hdata] using emit_lvl_line_same .data v s
  have still_idle : (emit (.lvl .data v) s).clk = ⟨.output, false⟩ := by
    simpa [hclk] using emit_lvl_line_of_ne (l := .data) (k := .clk) (by decide) v s
  simp [bitEvents, observe, signalsOf_lvl_data, signalsOf_lvl_clk_true board still_idle presented, signalsOf_lvl_false]

/-- One bit clocked out leaves `CLK` low and its level on `DATA`. -/
theorem emitAll_bitEvents (v : Bool) (s : State) :
    (emitAll (bitEvents v) s).data = ⟨s.data.dir, v⟩ ∧ (emitAll (bitEvents v) s).clk = ⟨s.clk.dir, false⟩ := by
  obtain ⟨-, lines⟩ := emitAll_bits [] v s
  exact lines

/-- On driven lines with the clock idle, the bits clocked out are the bits seen. -/
theorem observe_bits (bs : List Bool) {s : State} (hclk : s.clk = ⟨.output, false⟩) (hdata : s.data.dir = .output) :
    observe board (bs.flatMap bitEvents) s = bs.map .bit := by
  induction bs generalizing s with
  | nil => rfl
  | cons b bs ih =>
    obtain ⟨data, clk⟩ := emitAll_bitEvents b s
    have later := ih (s := emitAll (bitEvents b) s) (by rw [clk, hclk]) (by rw [data, hdata])
    rw [List.flatMap_cons, observe_append, observe_bitEvents board hclk hdata, later, List.singleton_append, List.map_cons]

end

/-! ### A serial byte (R153) -/

theorem bitsDown_eq_map_range {k : Nat} (v : BitVec k) (n : Nat) :
    bitsDown v n = (List.range n).map (fun j => v.getLsbD (n - 1 - j)) := by
  induction n with
  | zero => rfl
  | succ n ih =>
    have lower (j : Nat) : n - 1 - j = n - (j + 1) := by omega
    simp [bitsDown, ih, List.range_succ_eq_map, lower]

theorem emit_spiByte_clk (b : BitVec 8) (s : State) : (emit (.spiByte b) s).clk = ⟨s.clk.dir, false⟩ := by
  simp [emit, applyEvent, State.withLvl]

/-- Settles O24: both the byte and the wave of its bits show `b[7]` down to `b[0]`. -/
theorem serialByteEqualsItsClockedBits : Obligations.SerialByteEqualsItsClockedBits := by
  intro board s b hclk hdata
  have wave : observe board (spiByteWave b) s = (bitsDown b 8).map .bit := observe_bits board _ hclk hdata
  refine ⟨wave.symm, ?_, by rw [emit_spiByte_clk]⟩
  rw [wave, bitsDown_eq_map_range, List.map_map]
  rfl

end Sys2Proof.Machine
end

