-- ==== Sys2Proof/Proofs/Claim.lean ====
section
/-! PROOFS. The claim of the lines by BEGIN (R164, R165, R212). -/

namespace Sys2Proof.Machine

theorem claim_trace (s : State) : (claim s).trace = s.trace ++ claimEvents s.mode :=
  emitAll_trace (claimEvents s.mode) s

/-- A claim sets `CLAIMED` and keeps what no wire event changes. -/
theorem claim_sameCore (s : State) : SameCore (s.withClaimed true) (claim s) :=
  have core := emitAll_sameCore (claimEvents s.mode) s
  ⟨core.dbuf, core.mode, core.pol, core.glyphs, rfl, core.rdata, core.floatScale, core.blinkLit, core.port⟩

theorem claim_pin (s : State) (l : Line) : (claim s).pin l = some false := by
  rw [pin_of_output (by rw [claim_line]), claim_line]

theorem claim_spiEn_of_bitbang {s : State} (h : s.mode = .bitbang) : (claim s).spiEn = s.spiEn := by
  simp [claim, claimEvents, h, emitAll, emit, applyEvent, State.withDir, State.withLvl]

theorem claim_spiEn_of_burst {s : State} (h : s.mode = .burst) : (claim s).spiEn = true := by
  simp [claim, claimEvents, h, emitAll, emit, applyEvent, State.withDir, State.withLvl]

/-- A row whose mask covers every bit stands for its match alone (R77). -/
theorem eq_of_and_full_mask {w pattern : CmdWord} (h : w &&& 0xFFFFFFFFFFFFFFFF = pattern) : w = pattern :=
  BitVec.and_allOnes.symm.trans h

/-- Settles O21: BEGIN is a claim, and its row has one word. -/
theorem beginClaimsTheLines : Obligations.BeginClaimsTheLines := by
  refine ⟨fun s => ⟨claim s, rfl, ?claims⟩, fun w hw => ?decoding⟩
  case claims =>
    obtain ⟨dbuf, mode, pol, glyphs, claimed, rdata, floatScale, blinkLit, port⟩ := claim_sameCore s
    refine ⟨claim_trace s, claimed, claim_line s, claim_pin s, ?_,
      dbuf, rdata, mode, pol, glyphs, floatScale, blinkLit, port⟩
    cases h : s.mode with
    | bitbang => exact claim_spiEn_of_bitbang h
    | burst => exact claim_spiEn_of_burst h
  case decoding =>
    rw [eq_of_and_full_mask hw]
    decide

end Sys2Proof.Machine
end

