-- ==== Sys2Proof/Proofs/CommandWords.lean ====
section
/-! PROOFS. From a row of R77's table to decoding: a word that matches a row is the command of that row. -/

namespace Sys2Proof

theorem opcode_and (a b : CmdWord) : opcode (a &&& b) = opcode a &&& opcode b :=
  BitVec.extractLsb'_and

/-- A mask that covers the opcode leaves the word the opcode of the match. -/
theorem opcode_eq_of_match {w mask pattern : CmdWord} (hmask : opcode mask = 0xF) (h : w &&& mask = pattern) :
    opcode w = opcode pattern := by
  rw [← h, opcode_and, hmask]
  exact BitVec.and_allOnes.symm

/-- R77: a word that matches its opcode's row is the command of that row. -/
theorem decode_eq_command_of_match {w mask pattern : CmdWord} {i : Instr} (hmask : opcode mask = 0xF)
    (h : w &&& mask = pattern) (hrow : opcode w = opcode pattern → rowOf w = some ⟨mask, pattern, i⟩) :
    decode w = .command i := by
  simp [decode, hrow (opcode_eq_of_match hmask h), h]

end Sys2Proof
end

