-- ==== Sys2Proof/Proofs/FieldPlaces.lean ====
section
/-! PROOFS. The code that the field formatter puts on each place (R105 to R108), for a field of any width. -/

namespace Sys2Proof.Machine

section Loop
variable {gl : Glyphs} {pad : Bool} {W m k : Nat} {F : Vector SegCode W} {r : Nat × Vector SegCode W}

/-- The loop's index is the leftmost place written. -/
theorem FieldLoopSpec.placeWritten_iff (spec : FieldLoopSpec gl pad W m F r) (hk : k < W) :
    placeWritten m pad (W - 1 - k) ↔ r.1 ≤ k :=
  (spec.reach k hk).symm

/-- The sign goes one place to the left of the loop's index, or on it when that is the leftmost (R107). -/
theorem FieldLoopSpec.minusPlace_iff (spec : FieldLoopSpec gl pad W m F r) (hk : k < W) :
    minusPlace m pad W (W - 1 - k) ↔ r.1 - 1 = k := by
  have index_lt := spec.index_lt
  have right_neighbour : placeWritten m pad (W - 1 - k - 1) ↔ r.1 ≤ k + 1 := by
    obtain inside | rightmost : k + 1 < W ∨ k + 1 = W := by omega
    · exact spec.placeWritten_iff inside
    · exact iff_of_true (.inr (.inl (by omega))) (by omega)
  rw [minusPlace, spec.placeWritten_iff hk, right_neighbour]
  omega

theorem FieldLoopSpec.getElem_of_written (spec : FieldLoopSpec gl pad W m F r) (hk : k < W) (written : r.1 ≤ k) :
    r.2[k] = numeralOf gl (m / 10 ^ (W - 1 - k)) :=
  (Vector.getElem?_eq_some_iff.mp (spec.digits k written hk)).2

theorem FieldLoopSpec.getElem_of_unwritten (spec : FieldLoopSpec gl pad W m F r) (hk : k < W) (unwritten : k < r.1) :
    r.2[k] = F[k] := by
  simpa [hk] using spec.others k (.inl unwritten)

end Loop

section Field
variable (gl : Glyphs) (v : Int) (pad : Bool) {W k : Nat} (hk : k < W)

/-- The loop's field with the sign put over it. -/
theorem formatField_getElem :
    (formatField gl v W pad)[k] =
      if v < 0 ∧ (fieldLoop gl pad W v.natAbs (Vector.replicate W gl.blank)).1 - 1 = k then gl.minus
      else (fieldLoop gl pad W v.natAbs (Vector.replicate W gl.blank)).2[k] := by
  unfold formatField
  by_cases negative : v < 0 <;> simp [negative, Vector.getElem_setIfInBounds]

/-- Index `k` of a field shows place `W - 1 - k`. -/
theorem formatField_shows : FieldShows gl v W pad (W - 1 - k) (formatField gl v W pad)[k] := by
  have spec := fieldLoop_spec gl pad W v.natAbs (Vector.replicate W gl.blank) (by omega) le_rfl
  rw [FieldShows, spec.minusPlace_iff hk, spec.placeWritten_iff hk, formatField_getElem gl v pad hk]
  refine ⟨fun sign => if_pos sign, fun noSign written => ?digit, fun noSign unwritten => ?blank⟩
  case digit =>
    rw [if_neg noSign, spec.getElem_of_written hk written]
  case blank =>
    rw [if_neg noSign, spec.getElem_of_unwritten hk (Nat.not_le.mp unwritten), Vector.getElem_replicate]

end Field

end Sys2Proof.Machine
end

