-- ==== Sys2Proof/Proofs/BufferWrite.lean ====
section
/-! PROOFS. What a buffer write does, said once for every buffer-writing command (R200): the digits of the packed word
(R21, R120), and the commit of the buffer with its frame (R155 to R157, R160, R169). -/

namespace Sys2Proof.Machine

/-! ### The digits of a packed word -/

/-- A code shifted to byte `p` of a word is byte `p` of it, and leaves the other bytes 0. -/
theorem byte_of_shifted_code (d : SegCode) (p q : Nat) (hq : q < 4) :
    (d.setWidth 32 <<< (8 * p)).extractLsb' (8 * q) 8 = if p = q then d else 0 := by
  apply BitVec.eq_of_getLsbD_eq
  intro i hi
  have in_word : 8 * q + i < 32 := by omega
  obtain below | rfl | above : q < p ∨ q = p ∨ p < q := by omega
  · have low : 8 * q + i < 8 * p := by omega
    simp [hi, in_word, low, below.ne']
  · simp [hi, in_word]
  · have high : 8 ≤ 8 * q + i - 8 * p := by omega
    simp [hi, in_word, above.ne, BitVec.getLsbD_of_ge d _ high]

/-- Digit `k + 1` of a packed word is index `k` of the list of codes. -/
theorem digitOf_pack (F : Vector SegCode 4) {k : Nat} (hk : k < 4) : digitOf (pack F) (k + 1) = F[k] := by
  have byte_of_pack (q : Nat) (hq : q < 4) :
      (pack F).extractLsb' (8 * q) 8 =
        (if 3 = q then F[0] else 0) ||| (if 2 = q then F[1] else 0) ||| (if 1 = q then F[2] else 0)
          ||| (if 0 = q then F[3] else 0) := by
    simp only [← byte_of_shifted_code _ _ q hq, ← BitVec.extractLsb'_or]
    rw [Nat.mul_zero, BitVec.shiftLeft_zero]
    rfl
  rw [digitOf, byte_of_pack _ (by omega)]
  obtain rfl | rfl | rfl | rfl : k = 0 ∨ k = 1 ∨ k = 2 ∨ k = 3 := by omega
  all_goals simp

theorem digitOf_writeBuffer_pack (F : Vector SegCode 4) (s : State) {k : Nat} (hk : k < 4) :
    digitOf (writeBuffer (pack F) s).dbuf (k + 1) = F[k] := by
  rw [writeBuffer_dbuf, digitOf_pack F hk]

/-! ### The commit of the buffer -/

theorem wireWord_eq_xor_inv (pol : Polarity) (w : Word) : wireWord pol w = w ^^^ inv pol := by
  cases pol with
  | ca => exact BitVec.xor_allOnes.symm
  | cc => exact BitVec.xor_zero.symm

/-- One correction bit serves every bit of the word (R157). -/
theorem wireWord_getLsbD (pol : Polarity) (w : Word) {i : Nat} (hi : i < 32) :
    (wireWord pol w).getLsbD i = (w.getLsbD i ^^ (inv pol).getLsbD 0) := by
  cases pol <;> simp [wireWord, inv, hi]

/-- The events a commit issues are those that send the buffer. -/
theorem commitEvents_eq_commitTrace (mode : Mode) (pol : Polarity) (w : Word) :
    commitEvents mode pol w = commitTrace mode pol w := by
  cases mode with
  | burst =>
    rw [commitTrace, wireWord_eq_xor_inv]
    rfl
  | bitbang =>
    have clocked : (bitsDown w 32).flatMap (fun b => bitEvents (b ^^ (inv pol).getLsbD 0)) =
        (List.range 32).flatMap (fun k => bitEvents ((wireWord pol w).getLsbD (31 - k))) := by
      rw [bitsDown_eq_map_range, List.flatMap_map]
      refine List.flatMap_congr fun k _ => ?_
      rw [wireWord_getLsbD pol w (by omega)]
    rw [commitEvents, bitBangEvents, clocked]
    rfl

/-- Every buffer write is followed by the commit of the new buffer, and changes nothing else. -/
theorem writeBuffer_committed (w : Word) (s : State) : Committed s (writeBuffer w s) := by
  obtain ⟨dbuf, mode, pol, glyphs, claimed, rdata, floatScale, blinkLit, port⟩ := commit_sameCore (s.withDbuf w)
  constructor
  case trace => rw [writeBuffer, commit_trace, commitEvents_eq_commitTrace, dbuf]; rfl
  case unclaimedLines =>
    intro free l
    rw [writeBuffer, commit_of_unclaimed (s := s.withDbuf w) free, State.withDbuf_line]
  case strobeLow =>
    intro held
    obtain ⟨stb, -⟩ := commit_lines (s := s.withDbuf w) held
    rw [writeBuffer, stb]
  case clockLow =>
    intro held
    obtain ⟨-, clk, -⟩ := commit_lines (s := s.withDbuf w) held
    rw [writeBuffer, clk]
  case dataLast =>
    intro held bitbang
    obtain ⟨-, -, -, data⟩ := commit_lines (s := s.withDbuf w) held
    rw [writeBuffer, data bitbang, dbuf, wireWord_getLsbD _ _ (by decide)]
    rfl
  case directions => exact fun l => by rw [writeBuffer, commit_dir, State.withDbuf_line]
  case spiEn => exact commit_spiEn (s.withDbuf w)
  all_goals assumption

end Sys2Proof.Machine
end

