-- ==== Sys2Proof/Proofs/Commands.lean ====
section
/-! PROOFS. The buffer and value commands, and GETPIX. A buffer-writing command writes a packed word and commits it
(`BufferWrite`), and the words of its row decode to it (`CommandWords`); what is left is which codes it packs. -/

namespace Sys2Proof.Machine

/-! ### The buffer commands -/

/-- Settles O9: the digits of the packed word are the four operands. -/
theorem setDigitsStoresFourCodes : Obligations.SetDigitsStoresFourCodes := by
  refine ⟨fun s d1 d2 d3 d4 => ?stores, fun w hw => ?decoding⟩
  case stores =>
    have digit (k : Nat) (hk : k < 4) := digitOf_writeBuffer_pack #v[d1, d2, d3, d4] s hk
    exact ⟨_, rfl, digit 0 (by decide), digit 1 (by decide), digit 2 (by decide), digit 3 (by decide),
      writeBuffer_committed _ s⟩
  case decoding =>
    exact decode_eq_command_of_match (by decide) hw fun op => by rw [rowOf, op]; rfl

theorem pack_blanks_glyphRom :
    pack #v[glyphRom.blank, glyphRom.blank, glyphRom.blank, glyphRom.blank] = 0x00000000 := by
  decide

/-- Settles O11: CLEAR is a buffer write like any other, of the word that SETDIGITS of four blanks packs. -/
theorem clearBlanksTheDisplay : Obligations.ClearBlanksTheDisplay := by
  refine ⟨fun s => ⟨_, rfl, ?blanks, writeBuffer_committed _ s, ?zero, exec_setDigits_blanks s⟩,
    fun w hw => ?decoding⟩
  case blanks =>
    intro n hn hn4
    obtain ⟨k, rfl⟩ := Nat.exists_eq_add_of_le' hn
    exact (digitOf_writeBuffer_pack (Vector.replicate 4 s.glyphs.blank) s hn4).trans (Vector.getElem_replicate ..)
  case zero =>
    intro rom
    rw [writeBuffer_dbuf, rom, pack_blanks_glyphRom]
  case decoding =>
    rw [eq_of_and_full_mask hw]
    decide

/-! ### The value commands -/

theorem withDot_eq_dotted (gl : Glyphs) (lit : Bool) (code : SegCode) : withDot gl lit code = dotted gl lit code := by
  cases lit <;> simp [withDot, dotted]

/-- R109: mask bit `3 - k` puts the dot on index `k`. -/
theorem applyDots_getElem (gl : Glyphs) (F : Vector SegCode 4) (dots : BitVec 4) {k : Nat} (hk : k < 4) :
    (applyDots gl F dots)[k] = dotted gl (dots.getLsbD (3 - k)) F[k] := by
  obtain rfl | rfl | rfl | rfl : k = 0 ∨ k = 1 ∨ k = 2 ∨ k = 3 := by omega
  all_goals exact withDot_eq_dotted ..

/-- Settles O12: index `k` of the four-digit field under its dot is digit `k + 1`. -/
theorem setIntShowsTheInteger : Obligations.SetIntShowsTheInteger := by
  refine ⟨fun s v pad dots => ⟨_, rfl, writeBuffer_committed _ s, fun k hk => ?shows⟩, fun w hw => ?decoding⟩
  case shows =>
    refine ⟨(formatField s.glyphs v 4 pad)[k], formatField_shows s.glyphs v pad hk, ?_⟩
    rw [digitOf_writeBuffer_pack _ s hk, encodeInteger, applyDots_getElem s.glyphs _ dots hk]
  case decoding =>
    exact decode_eq_command_of_match (by decide) hw fun op => by rw [rowOf, op]; rfl

/-- A two-digit field and two more codes, as SETTEMPC and SETHUM pack them (R114, R115). -/
theorem twoDigitField_shown (gl : Glyphs) (v : Int) (pad : Bool) (third fourth : SegCode) (s : State) :
    let w := (writeBuffer (pack #v[(formatField gl v 2 pad)[0], (formatField gl v 2 pad)[1], third, fourth]) s).dbuf
    FieldShows gl v 2 pad 1 (digitOf w 1) ∧ FieldShows gl v 2 pad 0 (digitOf w 2) ∧
      digitOf w 3 = third ∧ digitOf w 4 = fourth := by
  have digit (k : Nat) (hk : k < 4) :=
    digitOf_writeBuffer_pack #v[(formatField gl v 2 pad)[0], (formatField gl v 2 pad)[1], third, fourth] s hk
  have place (k : Nat) (hk : k < 2) := formatField_shows gl v pad hk
  refine ⟨?_, ?_, digit 2 (by decide), digit 3 (by decide)⟩
  · rw [digit 0 (by decide)]
    exact place 0 (by decide)
  · rw [digit 1 (by decide)]
    exact place 1 (by decide)

/-- Settles O14: the two-digit field, then DEGREE and C. -/
theorem setTempCShowsTheTemperature : Obligations.SetTempCShowsTheTemperature :=
  ⟨fun s v pad => ⟨_, rfl, writeBuffer_committed _ s, twoDigitField_shown s.glyphs v pad _ _ s⟩,
    fun w hw => decode_eq_command_of_match (by decide) hw fun op => by rw [rowOf, op]; rfl⟩

/-- Settles O15: the two-digit field, then DEGREE and UNDER_DEGREE. -/
theorem setHumShowsTheHumidity : Obligations.SetHumShowsTheHumidity :=
  ⟨fun s v pad => ⟨_, rfl, writeBuffer_committed _ s, twoDigitField_shown s.glyphs v pad _ _ s⟩,
    fun w hw => decode_eq_command_of_match (by decide) hw fun op => by rw [rowOf, op]; rfl⟩

/-- R118: the leading glyph moves the three-digit field one index to the right. -/
theorem encodeIpOctet_getElem_succ (gl : Glyphs) (o : Nat) {k : Nat} (hk : k < 3) :
    (encodeIpOctet gl o)[k + 1] = (formatField gl o 3 false)[k] := by
  obtain rfl | rfl | rfl : k = 0 ∨ k = 1 ∨ k = 2 := by omega
  all_goals rfl

/-- Settles O17: digit 1 is the leading glyph, digit `k + 2` is index `k` of the octet's field. -/
theorem setIpShowsTheOctet : Obligations.SetIpShowsTheOctet := by
  refine ⟨fun s o => ⟨_, rfl, writeBuffer_committed _ s, ?leading, fun k hk => ?octet⟩, fun w hw => ?decoding⟩
  case leading =>
    exact digitOf_writeBuffer_pack (encodeIpOctet s.glyphs o) s (by decide : 0 < 4)
  case octet =>
    rw [digitOf_writeBuffer_pack _ s (by omega : k + 1 < 4), encodeIpOctet_getElem_succ s.glyphs o hk]
    exact formatField_shows s.glyphs o false hk
  case decoding =>
    exact decode_eq_command_of_match (by decide) hw fun op => by rw [rowOf, op]; rfl

/-! ### The raw bit commands -/

/-- R53: bit `k` of digit `n` of a buffer word. -/
theorem digitOf_getLsbD (w : Word) (n : Nat) {k : Nat} (hk : k < 8) :
    (digitOf w n).getLsbD k = w.getLsbD (8 * (4 - n) + k) := by
  simp [digitOf, hk]

/-- Settles O20: GETPIX writes `RDATA` and nothing else. -/
theorem getPixReadsOneBit : Obligations.GetPixReadsOneBit :=
  ⟨fun s i _ => rfl, fun s n k _ _ hk => ⟨_, rfl, (digitOf_getLsbD s.dbuf n hk).symm⟩,
    fun w hw => decode_eq_command_of_match (by decide) hw fun op => by rw [rowOf, op]; rfl⟩

end Sys2Proof.Machine
end

