-- ==== Sys2Proof/Proofs/Reset.lean ====
section
/-! PROOFS. The state right after construction (R270). -/

namespace Sys2Proof.Machine

/-- R28: construction leaves all three lines undriven at level 0, whatever its arguments. -/
@[simp] theorem State.construct_line (mode : Mode) (pol : Polarity) (gl : Glyphs) (reading : FloatScale)
    (phase : BlinkPhase) (l : Line) : (State.construct mode pol gl reading phase).line l = ⟨.input, false⟩ := by
  cases l <;> rfl

/-- Settles O8: every register but the lines is a field that construction sets. -/
theorem constructionSetsTheResetValues : Obligations.ConstructionSetsTheResetValues := by
  intro mode pol
  have lines := State.construct_line mode pol glyphRom .single .even
  exact ⟨rfl, rfl, rfl, rfl, rfl, rfl, lines, rfl, rfl, rfl⟩

end Sys2Proof.Machine
end

