-- ==== Sys2Proof/Proofs/RoundTrip.lean ====
section
/-! PROOFS. The encoding (R71 to R79): what a mask selects of a word, and from it the reserved words, the two round trips of
`encode` and `decode`, and the opcode table. -/

namespace Sys2Proof

open Machine

/-! ### Masks and fields -/

theorem extractLsb'_eq_field (w : CmdWord) (lo n : Nat) : w.extractLsb' lo n = field w lo n := rfl

@[simp] theorem place_zero (n lo : Nat) : place (0#n) lo = 0#64 := by
  simp [place]

/-- A mask of one field leaves that field in its place. -/
theorem and_place_allOnes (w : CmdWord) (lo n : Nat) : w &&& place (BitVec.allOnes n) lo = place (field w lo n) lo := by
  apply BitVec.eq_of_getLsbD_eq
  intro k hk
  by_cases hl : lo ≤ k
  · by_cases hn : k - lo < n <;> simp [field, hk, hl, hn]
  · simp [hl]

theorem and_place_allOnes_eq_zero_iff (w : CmdWord) {lo n : Nat} (h : lo + n ≤ 64) :
    w &&& place (BitVec.allOnes n) lo = 0 ↔ field w lo n = 0 := by
  rw [and_place_allOnes]
  constructor
  · intro zero
    rw [← field_place (field w lo n) lo h, zero]
    simp [field]
  · intro zero
    rw [zero]
    exact place_zero n lo

/-- A one-bit operand is a field of width 1. -/
theorem ofBool_getLsbD (w : CmdWord) (k : Nat) : BitVec.ofBool (w.getLsbD k) = field w k 1 := by
  apply BitVec.eq_of_getLsbD_eq
  intro j hj
  obtain rfl : j = 0 := by omega
  simp [field]

theorem getLsbD_of_field_eq_ofBool {w : CmdWord} {k : Nat} {b : Bool} (h : field w k 1 = BitVec.ofBool b) :
    w.getLsbD k = b := by
  simpa [field] using congrArg (·.getLsbD 0) h

theorem toNat_shiftRight_60 (w : CmdWord) : (w >>> 60).toNat = (opcode w).toNat := by
  have h := w.isLt
  simp [opcode, field, BitVec.extractLsb'_toNat]
  omega

theorem opcode_eq_of_toNat {w : CmdWord} {op : Nat} (h : (opcode w).toNat = op) : opcode w = BitVec.ofNat 4 op := by
  rw [← h, BitVec.ofNat_toNat, BitVec.setWidth_eq]

/-! ### Reserved words (R78) -/

/-- `mask` covers the opcode and the bits `reserved`, and `pattern` is the opcode `op` alone (R77). -/
abbrev CoversReserved (mask pattern reserved : CmdWord) (op : Nat) : Prop :=
  mask = place (BitVec.allOnes 4) 60 ||| reserved ∧ pattern = place (BitVec.ofNat 4 op) 60 ∧
    mask &&& reserved = reserved ∧ pattern &&& reserved = 0

section Row
variable {w mask pattern : CmdWord} {op : Nat} (hop : (opcode w).toNat = op)
include hop

/-- A word of a row's opcode matches the row exactly when its reserved bits are 0. -/
theorem and_mask_eq_iff {reserved : CmdWord} (h : CoversReserved mask pattern reserved op) :
    w &&& mask = pattern ↔ w &&& reserved = 0 := by
  obtain ⟨parts, opcodeOnly, covered, clear⟩ := h
  constructor
  · intro matched
    rw [← covered, ← BitVec.and_assoc, matched, clear]
  · intro zero
    rw [parts, BitVec.and_or_distrib_left, zero, and_place_allOnes, ← opcode, opcode_eq_of_toNat hop, ← opcodeOnly]
    exact BitVec.or_zero

/-- The same for a reserved field of `n` bits from bit `lo` on. -/
theorem field_ne_zero_iff (lo n : Nat)
    (h : lo + n ≤ 60 ∧ CoversReserved mask pattern (place (BitVec.allOnes n) lo) op) :
    field w lo n ≠ 0 ↔ w &&& mask ≠ pattern := by
  obtain ⟨inside, covers⟩ := h
  rw [Ne, Ne, and_mask_eq_iff hop covers, and_place_allOnes_eq_zero_iff w (by omega)]

/-- The same for two reserved fields. -/
theorem fields_ne_zero_iff (lo n lo' n' : Nat)
    (h : (lo + n ≤ 60 ∧ lo' + n' ≤ 60) ∧
      CoversReserved mask pattern (place (BitVec.allOnes n) lo ||| place (BitVec.allOnes n') lo') op) :
    (field w lo n ≠ 0 ∨ field w lo' n' ≠ 0) ↔ w &&& mask ≠ pattern := by
  obtain ⟨⟨inside, inside'⟩, covers⟩ := h
  have split := BitVec.or_eq_zero_iff (x := w &&& place (BitVec.allOnes n) lo) (y := w &&& place (BitVec.allOnes n') lo')
  rw [Ne, Ne, Ne, and_mask_eq_iff hop covers, BitVec.and_or_distrib_left, ← not_and_or,
    ← and_place_allOnes_eq_zero_iff w (by omega), ← and_place_allOnes_eq_zero_iff w (by omega)]
  exact not_congr split.symm

end Row

/-- R78's reserved bits are those that R77's mask covers outside the opcode. -/
theorem reserved_iff_of_rowOf {w : CmdWord} {r : Row} (h : rowOf w = some r) :
    Reserved w ↔ w &&& r.mask ≠ r.pattern := by
  unfold rowOf at h
  split at h
  case h_14 => cases h
  all_goals
    rename_i hop
    simp only [Reserved, toNat_shiftRight_60, hop]
    obtain rfl := Option.some.inj h
    dsimp only
  case h_1 | h_2 => exact field_ne_zero_iff hop 32 28 (by decide)
  case h_3 | h_12 | h_13 => exact field_ne_zero_iff hop 0 60 (by decide)
  case h_4 | h_5 => exact field_ne_zero_iff hop 37 23 (by decide)
  case h_6 | h_7 => exact fields_ne_zero_iff hop 37 23 32 4 (by decide)
  case h_8 => exact field_ne_zero_iff hop 49 11 (by decide)
  case h_9 => exact field_ne_zero_iff hop 8 52 (by decide)
  case h_10 => exact field_ne_zero_iff hop 1 59 (by decide)
  case h_11 => exact field_ne_zero_iff hop 5 55 (by decide)

/-- R77: a word that is not reserved is the command of its row. -/
theorem decode_eq_command_of_not_reserved {w : CmdWord} {i : Instr} (h : ¬ Reserved w)
    (hrow : (rowOf w).map Row.instr = some i) : decode w = .command i := by
  obtain ⟨r, row, rfl⟩ := Option.map_eq_some_iff.mp hrow
  have matched : w &&& r.mask = r.pattern := not_not.mp fun unmatched => h ((reserved_iff_of_rowOf row).mpr unmatched)
  simp [decode, row, matched]

/-! ### The fields of each format (R72 to R76) -/

section Formats
variable (op : BitVec 4)

theorem formatDigits_fields (d1 d2 d3 d4 : SegCode) :
    field (formatDigits op d1 d2 d3 d4) 24 8 = d1 ∧ field (formatDigits op d1 d2 d3 d4) 16 8 = d2 ∧
      field (formatDigits op d1 d2 d3 d4) 8 8 = d3 ∧ field (formatDigits op d1 d2 d3 d4) 0 8 = d4 := by
  simp (disch := decide) [formatDigits, field_place, field_place_beside]

theorem formatW_field (w : Word) : field (formatW op w) 0 32 = w := by
  simp (disch := decide) [formatW, field_place, field_place_beside]

theorem formatV_fields (pad : Bool) (aux : BitVec 4) (val : BitVec 32) :
    (formatV op pad aux val).getLsbD 36 = pad ∧ field (formatV op pad aux val) 32 4 = aux ∧
      field (formatV op pad aux val) 0 32 = val := by
  refine ⟨getLsbD_of_field_eq_ofBool ?_, ?_, ?_⟩ <;>
    simp (disch := decide) [formatV, field_place, field_place_beside]

theorem formatS_fields (blink : Bool) (min hour : BitVec 8) (now : BitVec 32) :
    (formatS op blink min hour now).getLsbD 48 = blink ∧ field (formatS op blink min hour now) 40 8 = min ∧
      field (formatS op blink min hour now) 32 8 = hour ∧ field (formatS op blink min hour now) 0 32 = now := by
  refine ⟨getLsbD_of_field_eq_ofBool ?_, ?_, ?_, ?_⟩ <;>
    simp (disch := decide) [formatS, field_place, field_place_beside]

theorem formatB_field {n : Nat} (imm : BitVec n) (h : n ≤ 60) : field (formatB op imm) 0 n = imm := by
  simp (disch := omega) [formatB, field_place, field_place_beside]

end Formats

theorem opcode_encode (i : Instr) : opcode (encode i) = Laws.EncodesOpcode.number i := by
  cases i with
  | setDigits => exact Laws.EncodesOpcode.setDigits ..
  | setSeg => exact Laws.EncodesOpcode.setSeg ..
  | clear => exact Laws.EncodesOpcode.clear
  | setInt => exact Laws.EncodesOpcode.setInt ..
  | setFloat => exact Laws.EncodesOpcode.setFloat ..
  | setTempC => exact Laws.EncodesOpcode.setTempC ..
  | setHum => exact Laws.EncodesOpcode.setHum ..
  | setScore => exact Laws.EncodesOpcode.setScore ..
  | setIp => exact Laws.EncodesOpcode.setIp ..
  | pushBit => exact Laws.EncodesOpcode.pushBit ..
  | getPix => exact Laws.EncodesOpcode.getPix ..
  | beginCmd => exact Laws.EncodesOpcode.beginCmd
  | endCmd => exact Laws.EncodesOpcode.endCmd

/-- The encoder leaves the reserved bits of its format 0. -/
theorem not_reserved_encode (i : Instr) : ¬ Reserved (encode i) := by
  rw [Reserved, toNat_shiftRight_60, opcode_encode]
  cases i <;>
    simp (disch := decide) [Laws.EncodesOpcode.number, extractLsb'_eq_field, encode, formatDigits, formatW, formatN,
      formatV, formatS, formatB, field_place_beside]

/-! ### Decoding the encoding -/

theorem toInt_ofInt_of_fitsSigned32 {v : Int} (h : fitsSigned32 v = true) : (BitVec.ofInt 32 v).toInt = v := by
  have bounds : -(2 ^ 31) ≤ v ∧ v < 2 ^ 31 := by simpa [fitsSigned32] using h
  rw [BitVec.toInt_ofInt]
  exact Int.bmod_eq_of_le (by omega) (by omega)

theorem toNat_ofNat_of_lt {n x : Nat} (h : x < 2 ^ n) : (BitVec.ofNat n x).toNat = x := by
  rw [BitVec.toNat_ofNat, Nat.mod_eq_of_lt h]

/-- The opcode of an encoding selects the row of its command, and the operands are read back from their fields. -/
theorem rowOf_encode_instr {i : Instr} (h : WellFormed i = true) : (rowOf (encode i)).map Row.instr = some i := by
  rw [rowOf, opcode_encode]
  cases i with
  | setDigits d1 d2 d3 d4 =>
    obtain ⟨f1, f2, f3, f4⟩ := formatDigits_fields 0x1 d1 d2 d3 d4
    change some (Instr.setDigits (field _ 24 8) (field _ 16 8) (field _ 8 8) (field _ 0 8)) = _
    rw [encode, f1, f2, f3, f4]
  | setSeg w => exact congrArg (some ∘ Instr.setSeg) (formatW_field 0x2 w)
  | clear => rfl
  | setInt v pad dots =>
    obtain ⟨fpad, fdots, fval⟩ := formatV_fields 0x4 pad dots (BitVec.ofInt 32 v)
    change some (Instr.setInt (field _ 0 32).toInt (BitVec.getLsbD _ 36) (field _ 32 4)) = _
    rw [encode, fval, fpad, fdots, toInt_ofInt_of_fitsSigned32 h]
  | setFloat x p pad =>
    obtain ⟨fpad, fp, fval⟩ := formatV_fields 0x5 pad (BitVec.ofNat 4 p) x
    change some (Instr.setFloat (field _ 0 32) (field _ 32 4).toNat (BitVec.getLsbD _ 36)) = _
    rw [encode, fval, fp, fpad, toNat_ofNat_of_lt (of_decide_eq_true h)]
  | setTempC v pad =>
    obtain ⟨fpad, -, fval⟩ := formatV_fields 0x6 pad 0 (BitVec.ofInt 32 v)
    change some (Instr.setTempC (field _ 0 32).toInt (BitVec.getLsbD _ 36)) = _
    rw [encode, fval, fpad, toInt_ofInt_of_fitsSigned32 h]
  | setHum v pad =>
    obtain ⟨fpad, -, fval⟩ := formatV_fields 0x7 pad 0 (BitVec.ofInt 32 v)
    change some (Instr.setHum (field _ 0 32).toInt (BitVec.getLsbD _ 36)) = _
    rw [encode, fval, fpad, toInt_ofInt_of_fitsSigned32 h]
  | setScore hour min blink now =>
    obtain ⟨hhour, hmin, hnow⟩ := of_decide_eq_true h
    obtain ⟨fblink, fmin, fhour, fnow⟩ :=
      formatS_fields 0x8 blink (BitVec.ofNat 8 min) (BitVec.ofNat 8 hour) (BitVec.ofNat 32 now)
    change some (Instr.setScore (field _ 32 8).toNat (field _ 40 8).toNat (BitVec.getLsbD _ 48) (field _ 0 32).toNat) = _
    rw [encode, fhour, fmin, fblink, fnow, toNat_ofNat_of_lt hhour, toNat_ofNat_of_lt hmin, toNat_ofNat_of_lt hnow]
  | setIp o =>
    change some (Instr.setIp (field _ 0 8).toNat) = _
    rw [encode, formatB_field _ _ (by decide), toNat_ofNat_of_lt (of_decide_eq_true h)]
  | pushBit b =>
    change some (Instr.pushBit (BitVec.getLsbD _ 0)) = _
    rw [encode, getLsbD_of_field_eq_ofBool (formatB_field 0xA (BitVec.ofBool b) (by decide))]
  | getPix k =>
    change some (Instr.getPix (field _ 0 5).toNat) = _
    rw [encode, formatB_field _ _ (by decide), toNat_ofNat_of_lt (of_decide_eq_true h)]
  | beginCmd => rfl
  | endCmd => rfl

/-- Settles O1: an encoding is not reserved, and its row holds the command. -/
theorem decodeOfEncodeGivesTheCommand : Obligations.DecodeOfEncodeGivesTheCommand :=
  fun i h => decode_eq_command_of_not_reserved (not_reserved_encode i) (rowOf_encode_instr h)

/-! ### Encoding the decoding -/

theorem decode_eq_command_iff {w : CmdWord} {i : Instr} :
    decode w = .command i ↔ ∃ r, rowOf w = some r ∧ w &&& r.mask = r.pattern ∧ r.instr = i := by
  unfold decode
  cases h : rowOf w with
  | none => simp
  | some r => by_cases matched : w &&& r.mask = r.pattern <;> simp [matched]

/-- A word is its opcode and reserved bits, which its row fixes, and the bits of its operands. -/
theorem pattern_or_operands {w mask pattern operands : CmdWord} (matched : w &&& mask = pattern)
    (h : mask ||| operands = BitVec.allOnes 64) : pattern ||| (w &&& operands) = w := by
  rw [← matched, ← BitVec.and_or_distrib_left, h, BitVec.and_allOnes]

/-- The operands of a row, put back in their places beside the row's match, are the word. -/
theorem encode_instr_of_match {w : CmdWord} {r : Row} (row : rowOf w = some r) (matched : w &&& r.mask = r.pattern) :
    encode r.instr = w := by
  unfold rowOf at row
  split at row
  case h_14 => cases row
  all_goals
    obtain rfl := Option.some.inj row
    dsimp only at matched
    simp only [encode, formatDigits, formatW, formatN, formatV, formatS, formatB, ofBool_getLsbD, BitVec.ofNat_toNat,
      BitVec.ofInt_toInt, BitVec.setWidth_eq, ← and_place_allOnes w, BitVec.ofNat_eq_ofNat, place_zero, BitVec.or_zero,
      BitVec.or_assoc, ← BitVec.and_or_distrib_left]
  case h_3 | h_12 | h_13 => exact (eq_of_and_full_mask matched).symm
  all_goals exact pattern_or_operands matched (by decide)

theorem fitsSigned32_toInt (x : BitVec 32) : fitsSigned32 x.toInt = true :=
  decide_eq_true ⟨x.le_toInt, x.toInt_lt⟩

/-- An operand read from its field is in the field's range. -/
theorem wellFormed_of_rowOf {w : CmdWord} {r : Row} (row : rowOf w = some r) : WellFormed r.instr = true := by
  unfold rowOf at row
  split at row
  case h_14 => cases row
  all_goals obtain rfl := Option.some.inj row
  case h_4 | h_6 | h_7 => exact fitsSigned32_toInt _
  case h_5 | h_9 | h_11 => exact decide_eq_true (BitVec.isLt _)
  case h_8 => exact decide_eq_true ⟨BitVec.isLt _, BitVec.isLt _, BitVec.isLt _⟩
  all_goals rfl

/-- Settles O2: the command of a matching row. -/
theorem encodeOfDecodeGivesTheWord : Obligations.EncodeOfDecodeGivesTheWord := by
  intro w i h
  obtain ⟨r, row, matched, rfl⟩ := decode_eq_command_iff.mp h
  exact ⟨encode_instr_of_match row matched, wellFormed_of_rowOf row⟩

/-! ### The opcode table -/

/-- The masks and matches of R77. -/
def opcodeTable : List (CmdWord × CmdWord) :=
  [(0xFFFFFFFF00000000, 0x1000000000000000), (0xFFFFFFFF00000000, 0x2000000000000000),
   (0xFFFFFFFFFFFFFFFF, 0x3000000000000000), (0xFFFFFFE000000000, 0x4000000000000000),
   (0xFFFFFFE000000000, 0x5000000000000000), (0xFFFFFFEF00000000, 0x6000000000000000),
   (0xFFFFFFEF00000000, 0x7000000000000000), (0xFFFE000000000000, 0x8000000000000000),
   (0xFFFFFFFFFFFFFF00, 0x9000000000000000), (0xFFFFFFFFFFFFFFFE, 0xA000000000000000),
   (0xFFFFFFFFFFFFFFE0, 0xB000000000000000), (0xFFFFFFFFFFFFFFFF, 0xC000000000000000),
   (0xFFFFFFFFFFFFFFFF, 0xD000000000000000)]

theorem mem_opcodeTable_of_rowOf {w : CmdWord} {r : Row} (row : rowOf w = some r) :
    (r.mask, r.pattern) ∈ opcodeTable := by
  unfold rowOf at row
  split at row
  case h_14 => cases row
  all_goals
    obtain rfl := Option.some.inj row
    simp [opcodeTable]

theorem decode_eq_command_of_mem {w : CmdWord} {r : CmdWord × CmdWord} (hr : r ∈ opcodeTable) (h : w &&& r.1 = r.2) :
    ∃ i, decode w = .command i := by
  simp only [opcodeTable, List.mem_cons, List.not_mem_nil, or_false] at hr
  obtain rfl | rfl | rfl | rfl | rfl | rfl | rfl | rfl | rfl | rfl | rfl | rfl | rfl := hr
  all_goals exact ⟨_, decode_eq_command_of_match (by decide) h fun op => by rw [rowOf, op]; rfl⟩

theorem opcode_of_mem_opcodeTable : ∀ r ∈ opcodeTable, opcode r.1 = 0xF :=
  List.map_eq_replicate_iff.mp rfl

theorem opcodeTable_opcodes : (opcodeTable.map fun r => opcode r.2) = (List.range' 1 13).map (BitVec.ofNat 4) :=
  rfl

theorem opcodeTable_opcodes_nodup : (opcodeTable.map fun r => opcode r.2).Nodup := by
  rw [opcodeTable_opcodes]
  decide

/-- Settles O3: the row of a decoded word is in the table, and the word's opcode tells the rows apart. -/
theorem commandWordsAreThoseOfTheTable : Obligations.CommandWordsAreThoseOfTheTable := by
  intro w
  refine ⟨⟨?inTable, ?decodes⟩, ?oneRow⟩
  case inTable =>
    rintro ⟨i, h⟩
    obtain ⟨r, row, matched, -⟩ := decode_eq_command_iff.mp h
    exact ⟨_, mem_opcodeTable_of_rowOf row, matched⟩
  case decodes =>
    rintro ⟨r, hr, h⟩
    exact decode_eq_command_of_mem hr h
  case oneRow =>
    intro r hr q hq hwr hwq
    have opr := opcode_eq_of_match (opcode_of_mem_opcodeTable r hr) hwr
    have opq := opcode_eq_of_match (opcode_of_mem_opcodeTable q hq) hwq
    exact List.inj_on_of_nodup_map opcodeTable_opcodes_nodup hr hq (opr.symm.trans opq)

/-- Settles O5, by running the decoder on the six words. -/
theorem writtenOutWordsDecode : Obligations.WrittenOutWordsDecode := by
  unfold Obligations.WrittenOutWordsDecode
  decide

end Sys2Proof
end

