-- ==== Sys2Proof/Proofs/CommandEffects.lean ====
section
/-! PROOFS. What an executed command can do, said once (R200 to R213): a buffer write and its commit, a read of one bit, a
claim or a release. The statements on what commands and steps change and keep follow from it. -/

namespace Sys2Proof.Machine

/-! ### Release (R166) -/

theorem release_trace (s : State) : (release s).trace = s.trace ++ releaseEvents :=
  emitAll_trace releaseEvents (s.withSpiEn false)

theorem SameCore.withClaimed {s t : State} (core : SameCore s t) (b : Bool) :
    SameCore (s.withClaimed b) (t.withClaimed b) :=
  ⟨core.dbuf, core.mode, core.pol, core.glyphs, rfl, core.rdata, core.floatScale, core.blinkLit, core.port⟩

theorem withSpiEn_sameCore (s : State) (b : Bool) : SameCore s (s.withSpiEn b) :=
  ⟨rfl, rfl, rfl, rfl, rfl, rfl, rfl, rfl, rfl⟩

/-- A release clears `CLAIMED` and keeps what no wire event changes. -/
theorem release_sameCore (s : State) : SameCore (s.withClaimed false) (release s) :=
  ((withSpiEn_sameCore s false).trans (emitAll_sameCore releaseEvents _)).withClaimed false

theorem release_spiEn (s : State) : (release s).spiEn = false := by
  simp [release, releaseEvents, emitAll, emit, applyEvent, State.withDir, State.withLvl]

theorem release_pin (s : State) (l : Line) : (release s).pin l = none :=
  pin_of_input (by rw [release_line])

/-- Settles O22: END is a release, and its row has one word. -/
theorem endReleasesTheLines : Obligations.EndReleasesTheLines := by
  refine ⟨fun s => ⟨release s, rfl, ?releases⟩, fun w hw => ?decoding⟩
  case releases =>
    obtain ⟨dbuf, mode, pol, glyphs, claimed, rdata, floatScale, blinkLit, port⟩ := release_sameCore s
    exact ⟨release_trace s, claimed, release_line s, release_pin s, release_spiEn s,
      dbuf, rdata, mode, pol, glyphs, floatScale, blinkLit, port⟩
  case decoding =>
    rw [eq_of_and_full_mask hw]
    decide

/-! ### What a command does -/

theorem exec_of_writesBuffer {i : Instr} (h : writesBuffer i = true) (s : State) :
    ∃ w, exec i s = .next (writeBuffer w s) := by
  cases i with
  | getPix | beginCmd | endCmd => cases h
  | _ => exact ⟨_, rfl⟩

/-- What command `i` makes of `s`. -/
inductive Effect (i : Instr) (s : State) : State → Prop where
  | write (w : Word) (writes : writesBuffer i = true) : Effect i s (writeBuffer w s)
  | read (k : Nat) (isGetPix : i = .getPix k) : Effect i s (s.withRdata (s.dbuf.getLsbD k))
  | claim (isBegin : i = .beginCmd) : Effect i s (claim s)
  | release (isEnd : i = .endCmd) : Effect i s (release s)

/-- Every command answers a next state. -/
theorem exec_effect (i : Instr) (s : State) : ∃ t, exec i s = .next t ∧ Effect i s t := by
  cases i with
  | getPix k => exact ⟨_, rfl, .read k rfl⟩
  | beginCmd => exact ⟨_, rfl, .claim rfl⟩
  | endCmd => exact ⟨_, rfl, .release rfl⟩
  | _ => exact ⟨_, rfl, .write _ rfl⟩

theorem effect_of_exec {i : Instr} {s t : State} (h : exec i s = .next t) : Effect i s t := by
  obtain ⟨u, hu, effect⟩ := exec_effect i s
  obtain rfl : u = t := by simpa [hu] using h
  exact effect

end Sys2Proof.Machine
end

