-- ==== Sys2Proof/Proofs/Steps.lean ====
section
/-! PROOFS. The step (R11, R70, R78, R271): it waits, refuses a reserved word, or runs a command to its end; and what every
command and every step keeps of the configuration (R23 to R25). -/

namespace Sys2Proof.Machine

/-! ### Refusals -/

theorem rowOf_eq_none_iff {w : CmdWord} :
    rowOf w = none ↔ (w >>> 60).toNat = 0x0 ∨ (w >>> 60).toNat = 0xE ∨ (w >>> 60).toNat = 0xF := by
  rw [toNat_shiftRight_60]
  constructor
  · intro h
    have bound := (opcode w).isLt
    unfold rowOf at h
    split at h
    case h_14 => grind
    all_goals cases h
  · rintro (h | h | h) <;> simp [rowOf, h]

/-- What decoding answers to a reserved word (R78). -/
theorem decode_of_reserved {w : CmdWord} (h : Reserved w) :
    decode w = if (w >>> 60).toNat = 0x0 ∨ (w >>> 60).toNat = 0xE ∨ (w >>> 60).toNat = 0xF then .reservedOpcode
      else .reservedBits := by
  cases row : rowOf w with
  | none => rw [if_pos (rowOf_eq_none_iff.mp row), decode, row]
  | some r =>
    have valid : rowOf w ≠ none := by simp [row]
    rw [if_neg (rowOf_eq_none_iff.not.mp valid), decode, row]
    exact if_neg ((reserved_iff_of_rowOf row).mp h)

theorem reserved_of_rowOf_eq_none {w : CmdWord} (h : rowOf w = none) : Reserved w := by
  obtain op | op | op := rowOf_eq_none_iff.mp h
  all_goals simp [Reserved, op]

theorem decode_of_not_reserved {w : CmdWord} (h : ¬ Reserved w) : ∃ i, decode w = .command i := by
  cases row : rowOf w with
  | none => exact absurd (reserved_of_rowOf_eq_none row) h
  | some r => exact ⟨r.instr, decode_eq_command_of_not_reserved h (congrArg (Option.map Row.instr) row)⟩

/-! ### One step -/

section
variable {s : State} {w : CmdWord} {rest : List CmdWord} (hp : s.port = w :: rest)
include hp

theorem nextCommand_of_cons : s.nextCommand = some (w, s.withPort rest) := by
  simp [State.nextCommand, hp]

theorem step_of_command {i : Instr} (hd : decode w = .command i) : step s = exec i (s.withPort rest) := by
  simp [step, nextCommand_of_cons hp, hd]

end

theorem step_of_nil {s : State} (hp : s.port = []) : step s = .next s := by
  simp [step, State.nextCommand, hp]

/-- Settles O6: the two ways a step is not refused. -/
theorem stepRunsTheDecodedCommand : Obligations.StepRunsTheDecodedCommand :=
  ⟨fun _ _ _ _ hp hd => step_of_command hp hd, fun _ hp => step_of_nil hp⟩

/-! ### What commands keep -/

/-- The construction arguments (R23 to R25), the parameters (R6) and the words to come. -/
structure KeepsConfig (s t : State) : Prop where
  mode : t.mode = s.mode
  pol : t.pol = s.pol
  glyphs : t.glyphs = s.glyphs
  floatScale : t.floatScale = s.floatScale
  blinkLit : t.blinkLit = s.blinkLit
  port : t.port = s.port

theorem SameCore.keepsConfig {s t : State} (core : SameCore s t) : KeepsConfig s t :=
  ⟨core.mode, core.pol, core.glyphs, core.floatScale, core.blinkLit, core.port⟩

theorem Effect.keepsConfig {i : Instr} {s t : State} (effect : Effect i s t) : KeepsConfig s t := by
  cases effect with
  | write w _ =>
    have committed := writeBuffer_committed w s
    exact ⟨committed.mode, committed.pol, committed.glyphs, committed.floatScale, committed.blinkLit, committed.port⟩
  | read k _ => exact ⟨rfl, rfl, rfl, rfl, rfl, rfl⟩
  | claim _ =>
    have core := claim_sameCore s
    exact ⟨core.mode, core.pol, core.glyphs, core.floatScale, core.blinkLit, core.port⟩
  | release _ =>
    have core := release_sameCore s
    exact ⟨core.mode, core.pol, core.glyphs, core.floatScale, core.blinkLit, core.port⟩

/-- A step waits, or has the effect of a command on the state with the word taken from the port. -/
theorem effect_of_step {s t : State} (h : step s = .next t) :
    t = s ∨ ∃ i rest, Effect i (s.withPort rest) t := by
  obtain ⟨-, rfl⟩ | ⟨w, rest, i, -, -, hexec⟩ := step_next_cases h
  · exact .inl rfl
  · exact .inr ⟨i, rest, effect_of_exec hexec⟩

/-- A word that is not reserved runs, and leaves the words behind it at the port. -/
theorem step_of_not_reserved {s : State} {w : CmdWord} {rest : List CmdWord} (hp : s.port = w :: rest)
    (h : ¬ Reserved w) : ∃ t, step s = .next t ∧ t.port = rest := by
  obtain ⟨i, hd⟩ := decode_of_not_reserved h
  obtain ⟨t, ht, effect⟩ := exec_effect i (s.withPort rest)
  exact ⟨t, (step_of_command hp hd).trans ht, effect.keepsConfig.port⟩

/-- Settles O4: the decoder names the refusal, and every other word runs. -/
theorem reservedWordsAreRefused : Obligations.ReservedWordsAreRefused := by
  intro s w rest hp
  refine ⟨fun hop => ?opcode, fun hw hop => ?bits, fun hw => step_of_not_reserved hp hw⟩
  case opcode =>
    have decoded := decode_of_reserved (reserved_of_rowOf_eq_none (rowOf_eq_none_iff.mpr hop))
    rw [if_pos hop] at decoded
    simp [step, nextCommand_of_cons hp, decoded]
  case bits =>
    have decoded := decode_of_reserved hw
    rw [if_neg hop] at decoded
    simp [step, nextCommand_of_cons hp, decoded]

theorem run_succ_of_step {M : Host.Core} {s t : M.State} {k : Nat} (h : M.step s = .next t) :
    M.run (k + 1) s = M.run k t := by
  simp [Host.Core.run, h]

/-- Settles O7, by induction on the words still to be presented. -/
theorem finiteSequencesRunToTheirEnd : Obligations.FiniteSequencesRunToTheirEnd := by
  intro s hs
  generalize hp : s.port = words at hs
  induction words generalizing s with
  | nil => exact ⟨s, rfl, hp⟩
  | cons w rest ih =>
    obtain ⟨t, ht, hrest⟩ := step_of_not_reserved hp (hs w List.mem_cons_self)
    obtain ⟨u, hu, hend⟩ := ih t hrest fun x hx => hs x (List.mem_cons_of_mem w hx)
    exact ⟨u, (run_succ_of_step ht).trans hu, hend⟩

/-- Settles O34: no command writes the configuration, and taking a word from the port does not either. -/
theorem configurationNeverChanges : Obligations.ConfigurationNeverChanges := by
  intro s t h
  obtain rfl | ⟨i, rest, effect⟩ := effect_of_step h
  · exact ⟨rfl, rfl, rfl, rfl, rfl⟩
  · have config := effect.keepsConfig
    exact ⟨config.mode, config.pol, config.glyphs, config.floatScale, config.blinkLit⟩

end Sys2Proof.Machine
end

