-- ==== Sys2Proof/Proofs/LineInvariants.lean ====
section
/-! PROOFS. The two invariants of the line registers: they agree with the lifecycle (R26, R28, R164, R166, R169), and they
are what the wire events of `TRACE` leave (R28, R59, R151). -/

namespace Sys2Proof.Machine

/-! ### The lines agree with the lifecycle -/

theorem lineReg_eq {r : LineReg} {d : Dir} {v : Bool} (hd : r.dir = d) (hv : r.lvl = v) : r = ⟨d, v⟩ := by
  rw [← hd, ← hv]

/-- A commit keeps claimed lines driven, with `STB` and `CLK` low. -/
theorem writeBuffer_linesFollowClaim {s : State} (h : LinesFollowClaim s) (w : Word) :
    LinesFollowClaim (writeBuffer w s) := by
  have committed := writeBuffer_committed w s
  have before : (writeBuffer w s).claimed = s.claimed := committed.claimed
  constructor
  all_goals
    intro claimed
    rw [before] at claimed
  case claimedStb =>
    have driven := committed.directions .stb
    simp only [State.line_stb, h.claimedStb claimed] at driven
    exact lineReg_eq driven (committed.strobeLow claimed)
  case claimedClk =>
    have driven := committed.directions .clk
    simp only [State.line_clk, h.claimedClk claimed] at driven
    exact lineReg_eq driven (committed.clockLow claimed)
  case claimedData => exact (committed.directions .data).trans (h.claimedData claimed)
  case claimedSpi => rw [committed.spiEn, committed.mode, h.claimedSpi claimed]
  case freeLines => exact fun l => (committed.unclaimedLines claimed l).trans (h.freeLines claimed l)
  case freeSpi => rw [committed.spiEn, h.freeSpi claimed]

theorem withRdata_linesFollowClaim {s : State} (h : LinesFollowClaim s) (b : Bool) : LinesFollowClaim (s.withRdata b) :=
  ⟨h.claimedStb, h.claimedClk, h.claimedData, h.claimedSpi, h.freeLines, h.freeSpi⟩

theorem withPort_linesFollowClaim {s : State} (h : LinesFollowClaim s) (p : List CmdWord) :
    LinesFollowClaim (s.withPort p) :=
  ⟨h.claimedStb, h.claimedClk, h.claimedData, h.claimedSpi, h.freeLines, h.freeSpi⟩

/-- In burst mode the claim starts the serial engine; bit-banged, it is off whether the lines were claimed or not. -/
theorem claim_spiEn {s : State} (h : LinesFollowClaim s) : (claim s).spiEn = decide (s.mode = .burst) := by
  cases mode : s.mode with
  | burst => rw [claim_spiEn_of_burst mode]; rfl
  | bitbang =>
    rw [claim_spiEn_of_bitbang mode]
    cases claimed : s.claimed with
    | true => rw [h.claimedSpi claimed, mode]
    | false => rw [h.freeSpi claimed]; rfl

theorem claim_linesFollowClaim {s : State} (h : LinesFollowClaim s) : LinesFollowClaim (claim s) := by
  have core := claim_sameCore s
  have claimed : (claim s).claimed = true := core.claimed
  constructor
  case claimedStb => exact fun _ => claim_line s .stb
  case claimedClk => exact fun _ => claim_line s .clk
  case claimedData => exact fun _ => congrArg LineReg.dir (claim_line s .data)
  case claimedSpi => exact fun _ => by rw [claim_spiEn h, core.mode]; rfl
  all_goals simp [claimed]

theorem release_linesFollowClaim (s : State) : LinesFollowClaim (release s) := by
  have claimed : (release s).claimed = false := (release_sameCore s).claimed
  constructor
  case freeLines => exact fun _ => release_line s
  case freeSpi => exact fun _ => release_spiEn s
  all_goals simp [claimed]

theorem Effect.linesFollowClaim {i : Instr} {s t : State} (effect : Effect i s t) (h : LinesFollowClaim s) :
    LinesFollowClaim t := by
  cases effect with
  | write w _ => exact writeBuffer_linesFollowClaim h w
  | read k _ => exact withRdata_linesFollowClaim h _
  | claim _ => exact claim_linesFollowClaim h
  | release _ => exact release_linesFollowClaim s

/-- Settles O30: every command keeps the invariant, and the port is no part of it. -/
theorem stepsKeepLinesFollowingClaim : Obligations.StepsKeepLinesFollowingClaim := by
  intro s t h hstep
  obtain rfl | ⟨i, rest, effect⟩ := effect_of_step hstep
  · exact h
  · exact effect.linesFollowClaim (withPort_linesFollowClaim h rest)

theorem construct_linesFollowClaim (mode : Mode) (pol : Polarity) (gl : Glyphs) (reading : FloatScale)
    (phase : BlinkPhase) : LinesFollowClaim (State.construct mode pol gl reading phase) := by
  have claimed : (State.construct mode pol gl reading phase).claimed = false := rfl
  constructor
  case freeLines => exact fun _ => State.construct_line mode pol gl reading phase
  case freeSpi => exact fun _ => rfl
  all_goals simp [claimed]

/-- Settles O31: nothing is claimed, and the lines are undriven at level 0. -/
theorem linesFollowClaimAtReset : Obligations.LinesFollowClaimAtReset :=
  ⟨construct_linesFollowClaim, construct_linesFollowClaim ..⟩

/-! ### The lines replay `TRACE` -/

/-- Two states with the same line registers and as many free values drawn. -/
structure SameLines (s t : State) : Prop where
  line : ∀ l, s.line l = t.line l
  drawn : s.drawn = t.drawn

/-- The effect of an event on the lines depends on the lines alone. -/
theorem applyEvent_sameLines {s t : State} (h : SameLines s t) (e : Event) :
    SameLines (applyEvent e s) (applyEvent e t) := by
  obtain ⟨line, drawn⟩ := h
  have data : s.data = t.data := line .data
  cases e <;> constructor <;> simp [applyEvent, State.withDir, State.withLvl, line, data, drawn]

theorem linesReplayTrace_iff {s : State} : LinesReplayTrace s ↔ ∃ n, SameLines s (replay n s.trace) :=
  exists_congr fun _ => ⟨fun ⟨line, drawn⟩ => ⟨line, drawn⟩, fun ⟨line, drawn⟩ => ⟨line, drawn⟩⟩

theorem replay_append_singleton (n : Nat) (es : List Event) (e : Event) :
    replay n (es ++ [e]) = applyEvent e (replay n es) := by
  simp [replay]

/-- An event is appended to `TRACE` and applied at once, so a replay applies it last. -/
theorem emit_linesReplayTrace {s : State} (h : LinesReplayTrace s) (e : Event) : LinesReplayTrace (emit e s) := by
  obtain ⟨n, same⟩ := linesReplayTrace_iff.mp h
  refine linesReplayTrace_iff.mpr ⟨n, ?_⟩
  rw [emit_trace, replay_append_singleton]
  exact applyEvent_sameLines ⟨fun l => (s.log_line e l).trans (same.line l), same.drawn⟩ e

theorem emitAll_linesReplayTrace {s : State} (h : LinesReplayTrace s) (es : List Event) :
    LinesReplayTrace (emitAll es s) := by
  induction es generalizing s with
  | nil => exact h
  | cons e es ih => exact ih (emit_linesReplayTrace h e)

/-- Lines, `TRACE` and the count of free values are all the invariant speaks of. -/
theorem linesReplayTrace_congr {s t : State} (h : LinesReplayTrace s) (line : ∀ l, t.line l = s.line l)
    (trace : t.trace = s.trace) (drawn : t.drawn = s.drawn) : LinesReplayTrace t := by
  obtain ⟨n, same⟩ := linesReplayTrace_iff.mp h
  refine linesReplayTrace_iff.mpr ⟨n, ?_⟩
  rw [trace]
  exact ⟨fun l => (line l).trans (same.line l), drawn.trans same.drawn⟩

theorem commit_linesReplayTrace {s : State} (h : LinesReplayTrace s) : LinesReplayTrace (commit s) := by
  unfold commit
  split
  · exact emitAll_linesReplayTrace h _
  · exact h

theorem Effect.linesReplayTrace {i : Instr} {s t : State} (effect : Effect i s t) (h : LinesReplayTrace s) :
    LinesReplayTrace t := by
  cases effect with
  | write w _ => exact commit_linesReplayTrace (linesReplayTrace_congr h (s.withDbuf_line w) rfl rfl)
  | read k _ => exact linesReplayTrace_congr h (s.withRdata_line _) rfl rfl
  | claim _ => exact linesReplayTrace_congr (emitAll_linesReplayTrace h _) (State.withClaimed_line _ _) rfl rfl
  | release _ =>
    have stopped : LinesReplayTrace (s.withSpiEn false) := linesReplayTrace_congr h (s.withSpiEn_line false) rfl rfl
    exact linesReplayTrace_congr (emitAll_linesReplayTrace stopped _) (State.withClaimed_line _ _) rfl rfl

/-- Settles O32: every command changes the lines by the events it appends to `TRACE`, and only so. -/
theorem stepsKeepLinesReplayingTrace : Obligations.StepsKeepLinesReplayingTrace := by
  intro s t h hstep
  obtain rfl | ⟨i, rest, effect⟩ := effect_of_step hstep
  · exact h
  · exact effect.linesReplayTrace (linesReplayTrace_congr h (s.withPort_line rest) rfl rfl)

/-- Settles O33: nothing to replay, and undriven lines at level 0. -/
theorem linesReplayTraceAtReset : Obligations.LinesReplayTraceAtReset :=
  fun _ _ n => ⟨n, fun l => by cases l <;> rfl, rfl⟩

end Sys2Proof.Machine
end

