-- ==== Sys2Proof/Proofs/TraceAndWriters.lean ====
section
/-! PROOFS. What each command appends to `TRACE` (R30, R55, R151, R168, R280), and which commands write each register
(R22, R26 to R29). -/

namespace Sys2Proof.Machine

/-! ### One event -/

theorem withLine_line_self (s : State) (l : Line) : s.withLine l (s.line l) = s := by
  cases l <;> rfl

theorem emit_dir_eq (l : Line) (d : Dir) (s : State) :
    emit (.dir l d) s = { (s.withLine l ⟨d, (s.line l).lvl⟩) with trace := s.trace ++ [.dir l d] } := by
  cases l <;> rfl

theorem emit_lvl_eq (l : Line) (v : Bool) (s : State) :
    emit (.lvl l v) s = { (s.withLine l ⟨(s.line l).dir, v⟩) with trace := s.trace ++ [.lvl l v] } := by
  cases l <;> rfl

/-- Settles O23: the free value drawn is the level a serial byte leaves on `DATA`. -/
theorem emitAppendsAndApplies : Obligations.EmitAppendsAndApplies := by
  refine fun s => ⟨fun l d => emit_dir_eq l d s, fun l v => emit_lvl_eq l v s, fun l v same => ?again, rfl,
    fun b => ⟨Config.spiDataLevel s.drawn, rfl⟩⟩
  case again =>
    rw [emit_lvl_eq, ← same, withLine_line_self]

/-! ### The length and the cost of a commit (R168, R280) -/

theorem length_flatMap_bitEvents (bs : List Bool) : (bs.flatMap bitEvents).length = 3 * bs.length := by
  induction bs with
  | nil => rfl
  | cons b bs ih =>
    rw [List.flatMap_cons, List.length_append, ih, List.length_cons]
    change 3 + 3 * bs.length = _
    omega

theorem lineRequests_append (es fs : List Event) : lineRequests (es ++ fs) = lineRequests es + lineRequests fs := by
  induction es with
  | nil => simp [lineRequests]
  | cons e es ih => cases e <;> simp [lineRequests, ih] <;> omega

theorem serialBits_append (es fs : List Event) : serialBits (es ++ fs) = serialBits es + serialBits fs := by
  induction es with
  | nil => simp [serialBits]
  | cons e es ih =>
    cases e <;> simp [serialBits, ih]
    omega

theorem wallClock_append (p b : Nat) (es fs : List Event) :
    wallClock p b (es ++ fs) = wallClock p b es + wallClock p b fs := by
  simp only [wallClock, lineRequests_append, serialBits_append]
  ring

theorem wallClock_flatMap_bitEvents (p b : Nat) (bs : List Bool) :
    wallClock p b (bs.flatMap bitEvents) = 3 * bs.length * p := by
  induction bs with
  | nil => simp [wallClock, lineRequests, serialBits]
  | cons v bs ih =>
    rw [List.flatMap_cons, wallClock_append, ih, List.length_cons]
    simp [wallClock, bitEvents, lineRequests, serialBits]
    ring

/-- The 32 bits of a bit-banged commit, clocked out between the start and the strobe. -/
theorem commitTrace_bitbang (pol : Polarity) (w : Word) :
    commitTrace .bitbang pol w =
      startWrite .bitbang ++ (bitsDown (wireWord pol w) 32).flatMap bitEvents ++ endWrite := by
  rw [bitsDown_eq_map_range, List.flatMap_map]
  rfl

theorem commitTrace_length (mode : Mode) (pol : Polarity) (w : Word) :
    (commitTrace mode pol w).length = match mode with | .bitbang => 100 | .burst => 7 := by
  cases mode with
  | burst => rfl
  | bitbang =>
    rw [commitTrace_bitbang, List.length_append, List.length_append, length_flatMap_bitEvents, bitsDown_length]
    rfl

theorem commitTrace_cost (mode : Mode) (pol : Polarity) (w : Word) (p b : Nat) :
    wallClock p b (commitTrace mode pol w) =
      match mode with | .bitbang => 100 * p | .burst => 3 * p + 32 * b := by
  cases mode with
  | burst => rfl
  | bitbang =>
    rw [commitTrace_bitbang, wallClock_append, wallClock_append, wallClock_flatMap_bitEvents, bitsDown_length]
    simp [wallClock, startWrite, endWrite, lineRequests, serialBits]
    ring

/-- A buffer-writing command commits the new buffer (R200). -/
theorem exec_writesBuffer_committed {i : Instr} (h : writesBuffer i = true) (s : State) :
    ∃ t, exec i s = .next t ∧ Committed s t := by
  obtain ⟨w, hw⟩ := exec_of_writesBuffer h s
  exact ⟨_, hw, writeBuffer_committed w s⟩

theorem committed_of_exec {i : Instr} {s t : State} (h : writesBuffer i = true) (hexec : exec i s = .next t) :
    Committed s t := by
  obtain ⟨u, hu, committed⟩ := exec_writesBuffer_committed h s
  obtain rfl : u = t := by simpa [hu] using hexec
  exact committed

/-- Settles O25: the lengths of the lists that a commit, a claim and a release append. -/
theorem eventCountsOfEachOperation : Obligations.EventCountsOfEachOperation := by
  intro s
  refine ⟨fun i hi => ?writes, ⟨_, rfl, ?begins⟩, ⟨_, rfl, ?ends⟩⟩
  case writes =>
    obtain ⟨t, ht, committed⟩ := exec_writesBuffer_committed hi s
    refine ⟨t, ht, ?_⟩
    rw [committed.trace, List.length_append, apply_ite List.length, commitTrace_length]
    rfl
  case begins =>
    rw [claim_trace, List.length_append]
    cases s.mode <;> rfl
  case ends =>
    rw [release_trace, List.length_append]
    rfl

/-- Settles O28: the events of a commit depend on the buffer, the mode, the polarity and `CLAIMED`, and a commit keeps the
last three. -/
theorem equalBuffersCommitEqualEvents : Obligations.EqualBuffersCommitEqualEvents := by
  intro i j s t u hi hj hs ht same
  have first := committed_of_exec hi hs
  have second := committed_of_exec hj ht
  refine ⟨_, first.trace, ?_⟩
  rw [second.trace, same, first.claimed, first.mode, first.pol]

/-- Settles O29: the cost of the commit that the command ends with. -/
theorem commitCostsByMode : Obligations.CommitCostsByMode := by
  intro i s p b hi claimed
  obtain ⟨t, ht, committed⟩ := exec_writesBuffer_committed hi s
  refine ⟨t, commitTrace s.mode s.pol t.dbuf, ht, ?_, commitTrace_cost ..⟩
  rw [committed.trace, if_pos claimed]

/-! ### What each command appends to `TRACE` -/

theorem Effect.trace {i : Instr} {s t : State} (effect : Effect i s t) : ∃ es, t.trace = s.trace ++ es := by
  cases effect with
  | write w _ => exact ⟨_, (writeBuffer_committed w s).trace⟩
  | read k _ => exact ⟨[], (List.append_nil _).symm⟩
  | claim _ => exact ⟨_, claim_trace s⟩
  | release _ => exact ⟨_, release_trace s⟩

/-- Settles O35: every command appends, and GETPIX and a buffer write on unclaimed lines append nothing. -/
theorem traceOnlyGrows : Obligations.TraceOnlyGrows := by
  refine ⟨fun s t h => ?grows, fun i s t h changed => ?writers⟩
  case grows =>
    obtain rfl | ⟨i, rest, effect⟩ := effect_of_step h
    · exact ⟨[], (List.append_nil _).symm⟩
    · exact effect.trace
  case writers =>
    cases effect_of_exec h with
    | write w writes =>
      refine .inl ⟨writes, ?_⟩
      by_contra free
      exact changed (by rw [(writeBuffer_committed w s).trace, if_neg free, List.append_nil])
    | read k _ => exact absurd rfl changed
    | claim isBegin => exact .inr (.inl isBegin)
    | release isEnd => exact .inr (.inr isEnd)

/-! ### The writers of each register -/

section Writers
variable {i : Instr} {s t : State}

theorem Effect.dbuf (effect : Effect i s t) : t.dbuf = s.dbuf ∨ writesBuffer i = true := by
  cases effect with
  | write w writes => exact .inr writes
  | read k _ => exact .inl rfl
  | claim _ => exact .inl (claim_sameCore s).dbuf
  | release _ => exact .inl (release_sameCore s).dbuf

theorem Effect.rdata (effect : Effect i s t) : t.rdata = s.rdata ∨ ∃ k, i = .getPix k := by
  cases effect with
  | write w _ => exact .inl (writeBuffer_committed w s).rdata
  | read k isGetPix => exact .inr ⟨k, isGetPix⟩
  | claim _ => exact .inl (claim_sameCore s).rdata
  | release _ => exact .inl (release_sameCore s).rdata

theorem Effect.claimed (effect : Effect i s t) : t.claimed = s.claimed ∨ i = .beginCmd ∨ i = .endCmd := by
  cases effect with
  | write w _ => exact .inl (writeBuffer_committed w s).claimed
  | read k _ => exact .inl rfl
  | claim isBegin => exact .inr (.inl isBegin)
  | release isEnd => exact .inr (.inr isEnd)

theorem Effect.spiEn (effect : Effect i s t) :
    t.spiEn = s.spiEn ∨ (i = .beginCmd ∧ s.mode = .burst) ∨ i = .endCmd := by
  cases effect with
  | write w _ => exact .inl (writeBuffer_committed w s).spiEn
  | read k _ => exact .inl rfl
  | claim isBegin =>
    cases mode : s.mode with
    | bitbang => exact .inl (claim_spiEn_of_bitbang mode)
    | burst => exact .inr (.inl ⟨isBegin, rfl⟩)
  | release isEnd => exact .inr (.inr isEnd)

theorem Effect.directions (effect : Effect i s t) (l : Line) :
    (t.line l).dir = (s.line l).dir ∨ i = .beginCmd ∨ i = .endCmd := by
  cases effect with
  | write w _ => exact .inl ((writeBuffer_committed w s).directions l)
  | read k _ => exact .inl (congrArg LineReg.dir (s.withRdata_line _ l))
  | claim isBegin => exact .inr (.inl isBegin)
  | release isEnd => exact .inr (.inr isEnd)

/-- A command that issues no wire event leaves the lines. -/
theorem Effect.line_of_trace_eq (effect : Effect i s t) (quiet : t.trace = s.trace) (l : Line) : t.line l = s.line l := by
  cases effect with
  | write w _ =>
    have committed := writeBuffer_committed w s
    refine committed.unclaimedLines (Bool.eq_false_iff.mpr fun held => ?_) l
    have events := committed.trace.symm.trans quiet
    have issued := commitTrace_length s.mode s.pol (writeBuffer w s).dbuf
    rw [if_pos held, List.append_right_eq_self] at events
    rw [events] at issued
    cases mode : s.mode <;> simp [mode] at issued
  | read k _ => exact s.withRdata_line _ l
  | claim _ =>
    rw [claim_trace, List.append_right_eq_self] at quiet
    cases mode : s.mode <;> simp [mode, claimEvents] at quiet
  | release _ =>
    rw [release_trace, List.append_right_eq_self] at quiet
    simp [releaseEvents] at quiet

end Writers

/-- Settles O36: what each command leaves of each register. -/
theorem eachRegisterHasItsWriters : Obligations.EachRegisterHasItsWriters := by
  intro i s t h
  obtain ⟨-, writers⟩ := traceOnlyGrows
  have effect := effect_of_exec h
  refine ⟨effect.dbuf.resolve_left, effect.rdata.resolve_left, effect.claimed.resolve_left, effect.spiEn.resolve_left,
    fun l moved => ?lines, fun l => (effect.directions l).resolve_left, ?begins, ?ends⟩
  case lines =>
    have issued : t.trace ≠ s.trace := fun quiet => moved (effect.line_of_trace_eq quiet l)
    exact ⟨issued, writers i s t h issued⟩
  case begins =>
    rintro rfl
    cases h
    exact (claim_sameCore s).claimed
  case ends =>
    rintro rfl
    cases h
    exact (release_sameCore s).claimed

end Sys2Proof.Machine
end

