-- ==== Sys2Proof/Proofs/ValueCommands.lean ====
section
/-! PROOFS. SETSEG, SETFLOAT, SETSCORE and PUSHBIT (R202, R205, R208, R210), the colon (R117) and the field of any width
(R105), each from the rules for buffer writes and the encoder. -/

namespace Sys2Proof.Machine

/-- Settles O10: the word is written verbatim, and GETPIX reads bits of it. -/
theorem setSegStoresTheWord : Obligations.SetSegStoresTheWord := by
  refine ⟨fun s w => ⟨_, rfl, writeBuffer_dbuf w s, writeBuffer_committed w s, fun i _ => ⟨_, rfl, ?reads⟩⟩,
    fun w hw => ?decoding⟩
  case reads =>
    rw [State.withRdata_rdata, writeBuffer_dbuf]
  case decoding =>
    exact decode_eq_command_of_match (by decide) hw fun op => by rw [rowOf, op]; rfl

/-! ### SETFLOAT -/

/-- R113: the dot of precision `p` is on index `3 - p`, if there is one. -/
theorem dotMaskFor_getLsbD (p : Nat) {k : Nat} (hk : k < 4) : (dotMaskFor p).getLsbD (3 - k) = decide (k + p = 3) := by
  obtain ⟨below, above⟩ := dotMaskOfThePrecision
  obtain hp | hp : p < 4 ∨ 4 ≤ p := by omega
  · rw [below p k hp hk]
    exact decide_eq_decide.mpr (by omega)
  · have beyond : k + p ≠ 3 := by omega
    simp [above p hp, beyond]

theorem binary32Value_of_exponent_ones {x : BitVec 32} (h : x.extractLsb' 23 8 = 0xFF) : binary32Value x = none := by
  simp [binary32Value, h]

/-- R112: a NaN or an infinity scales to 0 by the default reading. -/
theorem floatScaleSingle_of_nonfinite {x : BitVec 32} (h : binary32Value x = none) (p : Nat) :
    floatScaleSingle x p = 0 := by
  rw [floatScaleSingle, h]

/-- Settles O13: SETFLOAT is SETINT of the scaled integer under the dot of its precision. -/
theorem setFloatShowsTheScaledInteger : Obligations.SetFloatShowsTheScaledInteger := by
  obtain ⟨showsInteger, -⟩ := setIntShowsTheInteger
  refine ⟨fun s x p pad => ?shows, fun x p h => ?nonfinite, fun w hw => ?decoding⟩
  case shows =>
    obtain ⟨t, ht, committed, digits⟩ := showsInteger s (floatScaleOf s.floatScale x p) pad (dotMaskFor p)
    refine ⟨t, ht, committed, fun k hk => ?_⟩
    rw [← dotMaskFor_getLsbD p hk]
    exact digits k hk
  case nonfinite =>
    exact floatScaleSingle_of_nonfinite (binary32Value_of_exponent_ones h) p
  case decoding =>
    exact decode_eq_command_of_match (by decide) hw fun op => by rw [rowOf, op]; rfl

/-! ### SETSCORE and the colon -/

/-- The parity of the half-periods in which the colon is lit (R117). -/
def litParity : BlinkPhase → Nat
  | .even => 0
  | .odd => 1

theorem colon_eq_decide (phase : BlinkPhase) (blink : Bool) (now : Nat) :
    colon phase blink now = decide (blink = false ∨ now / 500 % 2 = litParity phase) := by
  cases blink with
  | false => simp [colon]
  | true => cases phase <;> simp [colon, blinkHalfPeriod, litParity, beq_eq_decide]

theorem numeralOf_mod (gl : Glyphs) (m : Nat) : numeralOf gl (m % 10) = numeralOf gl m := by
  simp [numeralOf]

/-- Settles O16: the tens and units of each number, with the colon as a dot on digit 2. -/
theorem setScoreShowsTheTime : Obligations.SetScoreShowsTheTime := by
  refine ⟨fun s h m blink now => ⟨_, rfl, writeBuffer_committed _ s, ?shows⟩, fun s hp => step_of_nil hp,
    fun w hw => ?decoding⟩
  case shows =>
    have digit (k : Nat) (hk : k < 4) :=
      digitOf_writeBuffer_pack (encodeScore s.glyphs s.blinkLit h m blink now) s hk
    simp only [numeralOf_mod]
    refine ⟨digit 0 (by decide), (digit 1 (by decide)).trans ?_, digit 2 (by decide), digit 3 (by decide)⟩
    change withDot s.glyphs (colon s.blinkLit blink now) (numeralOf s.glyphs h) = _
    rw [withDot_eq_dotted, colon_eq_decide]
    rfl
  case decoding =>
    exact decode_eq_command_of_match (by decide) hw fun op => by rw [rowOf, op]; rfl

/-- Settles O40: a blinking colon is the parity of the half-period that the time falls in. -/
theorem colonTogglesEveryHalfPeriod : Obligations.ColonTogglesEveryHalfPeriod := by
  have even (now : Nat) : colon .even true now = decide (now / 500 % 2 = 0) := by simp [colon_eq_decide, litParity]
  have odd (now : Nat) : colon .odd true now = !colon .even true now := by
    rw [even, ← decide_not, colon_eq_decide]
    exact decide_eq_decide.mpr (by simp [litParity])
  have toggles (now : Nat) : colon .even true (now + 500) = !colon .even true now := by
    rw [even, even, ← decide_not]
    exact decide_eq_decide.mpr (by omega)
  refine ⟨fun _ _ => rfl, fun phase now => ?_, fun now k hk hnow => ?_, odd, rfl, fun now low high => ?_, by decide,
    fun s hp => step_of_nil hp⟩
  · cases phase with
    | even => exact toggles now
    | odd => rw [odd, odd, toggles]
  · rw [even, even]
    exact decide_eq_decide.mpr (by omega)
  · rw [even]
    exact decide_eq_true (by omega)

/-! ### The field of any width -/

/-- Settles O37: place `j` is index `W - 1 - j`. -/
theorem formatFieldShowsEveryPlace : Obligations.FormatFieldShowsEveryPlace := by
  intro gl v W pad j hj code hcode
  obtain ⟨inside, rfl⟩ := Vector.getElem?_eq_some_iff.mp hcode
  have place : W - 1 - (W - 1 - j) = j := by omega
  simpa only [place] using formatField_shows gl v pad inside

/-! ### PUSHBIT -/

theorem pushWord_getLsbD_zero (v : Word) (b : Bool) : (pushWord v b).getLsbD 0 = b := by
  simp [pushWord]

theorem pushWord_getLsbD_succ (v : Word) (b : Bool) {i : Nat} (hi : i < 31) :
    (pushWord v b).getLsbD (i + 1) = v.getLsbD i := by
  have inside : i + 1 < 32 := by omega
  rw [BitVec.getLsbD_eq_getElem (by omega : i < 32)]
  simp [pushWord, inside]

/-- Settles O18: bit by bit of the shifted word. -/
theorem pushBitShiftsTheBuffer : Obligations.PushBitShiftsTheBuffer := by
  refine ⟨fun s b => ⟨_, rfl, writeBuffer_committed _ s, ?low, fun i hi => ?shifted⟩, fun w hw => ?decoding⟩
  case low => rw [writeBuffer_dbuf, pushWord_getLsbD_zero]
  case shifted => rw [writeBuffer_dbuf, pushWord_getLsbD_succ _ _ hi]
  case decoding =>
    exact decode_eq_command_of_match (by decide) hw fun op => by rw [rowOf, op]; rfl

/-- The buffer `v` after the bits of `w` from bit 31 down to bit `n` have been pushed. -/
def pushedDownTo (v w : Word) (n : Nat) : Word :=
  (v <<< (32 - n)) ||| (w >>> n)

theorem pushedDownTo_all (v w : Word) : pushedDownTo v w 32 = v := by
  simp [pushedDownTo, BitVec.ushiftRight_eq_zero]

theorem pushedDownTo_zero (v w : Word) : pushedDownTo v w 0 = w := by
  simp [pushedDownTo]

theorem pushWord_pushedDownTo (v w : Word) {n : Nat} (hn : n < 32) :
    pushWord (pushedDownTo v w (n + 1)) (w.getLsbD n) = pushedDownTo v w n := by
  apply BitVec.eq_of_getLsbD_eq
  intro j hj
  cases j with
  | zero =>
    rw [pushWord_getLsbD_zero]
    simp [pushedDownTo, hn]
  | succ j =>
    rw [pushWord_getLsbD_succ _ _ (by omega)]
    have inside : j < 32 := by omega
    have shifted : j + 1 < 32 - n ↔ j < 32 - (n + 1) := by omega
    have old : j + 1 - (32 - n) = j - (32 - (n + 1)) := by omega
    have new : n + (j + 1) = n + 1 + j := by omega
    simp [pushedDownTo, hj, inside, shifted, old, new]

/-- The words that push the `n` low bits of `w`, most significant first. -/
def pushWords (w : Word) (n : Nat) : List CmdWord :=
  (bitsDown w n).map fun b => encode (.pushBit b)

theorem decode_encode_pushBit (b : Bool) : decode (encode (.pushBit b)) = .command (.pushBit b) :=
  decodeOfEncodeGivesTheCommand _ rfl

theorem flatMap_range_countdown {α : Type} (f : Nat → List α) (n : Nat) :
    (List.range (n + 1)).flatMap (fun k => f (n - k)) = f n ++ (List.range n).flatMap fun k => f (n - 1 - k) := by
  simp [List.range_succ_eq_map, List.flatMap_map, Nat.sub_sub, Nat.add_comm 1]

/-- Pushing the last `n` bits of `w`, by induction on `n`: each push commits its own buffer. -/
theorem run_pushWords (v w : Word) (n : Nat) (hn : n ≤ 32) (s : State) (hbuf : s.dbuf = pushedDownTo v w n)
    (hport : s.port = pushWords w n) :
    ∃ t, core.run n s = .next t ∧ t.dbuf = pushedDownTo v w 0 ∧
      t.trace = s.trace ++ if s.claimed then
        (List.range n).flatMap fun k => commitTrace s.mode s.pol (pushedDownTo v w (n - 1 - k)) else [] := by
  induction n generalizing s with
  | zero => exact ⟨s, rfl, hbuf, by simp⟩
  | succ n ih =>
    have pushed := writeBuffer_committed (pushWord s.dbuf (w.getLsbD n)) (s.withPort (pushWords w n))
    have stepped : core.step s = .next (writeBuffer (pushWord s.dbuf (w.getLsbD n)) (s.withPort (pushWords w n))) :=
      step_of_command hport (decode_encode_pushBit (w.getLsbD n))
    have buffer : (writeBuffer (pushWord s.dbuf (w.getLsbD n)) (s.withPort (pushWords w n))).dbuf =
        pushedDownTo v w n := by
      rw [writeBuffer_dbuf, hbuf, pushWord_pushedDownTo v w hn]
    obtain ⟨t, ht, hdbuf, htrace⟩ := ih (by omega) _ buffer pushed.port
    refine ⟨t, (run_succ_of_step stepped).trans ht, hdbuf, ?_⟩
    rw [htrace, pushed.trace, buffer, pushed.claimed, pushed.mode, pushed.pol, Nat.add_sub_cancel,
      flatMap_range_countdown fun m => commitTrace s.mode s.pol (pushedDownTo v w m)]
    cases claimed : s.claimed <;> simp [claimed]

/-- Settles O19: the run of all 32 bits, from the old buffer with nothing pushed to the word with nothing left of it. -/
theorem thirtyTwoPushesReplaceTheBuffer : Obligations.ThirtyTwoPushesReplaceTheBuffer := by
  intro s w
  obtain ⟨t, ht, hdbuf, htrace⟩ := run_pushWords s.dbuf w 32 le_rfl { s with port := pushWords w 32 }
    (pushedDownTo_all s.dbuf w).symm rfl
  have bits : pushWords w 32 = (List.range 32).map fun k => encode (.pushBit (w.getLsbD (31 - k))) := by
    rw [pushWords, bitsDown_eq_map_range, List.map_map]
    rfl
  rw [bits] at ht htrace
  refine ⟨t, ht, hdbuf.trans (pushedDownTo_zero s.dbuf w), htrace.trans ?_⟩
  have buffer : ∀ k ∈ List.range 32,
      pushedDownTo s.dbuf w (32 - 1 - k) = (s.dbuf <<< (k + 1)) ||| (w >>> (31 - k)) := by
    intro k hk
    have count : 32 - (31 - k) = k + 1 := by
      have := List.mem_range.mp hk
      omega
    simp only [pushedDownTo, Nat.add_one_sub_one, count]
  rw [List.flatMap_congr fun k hk => congrArg (commitTrace s.mode s.pol) (buffer k hk)]

end Sys2Proof.Machine
end

