-- ==== Sys2Proof/Proofs/ReadBack.lean ====
section
/-! PROOFS. The display reads back as the integer it was set to (R110): a field is read place by place from the left,
through its blanks and its sign to its digits. -/

namespace Sys2Proof.Machine

/-! ### Glyphs told apart -/

section Glyphs
variable {gl : Glyphs} (distinct : DistinctGlyphs gl)
include distinct

theorem numeralOf_ne_blank (m : Nat) : numeralOf gl m ≠ gl.blank := by
  obtain ⟨fresh, -⟩ := List.nodup_cons.mp distinct
  rintro same
  exact fresh (List.mem_cons_of_mem _ (by simp [← same, numeralOf]))

theorem numeralOf_ne_minus (m : Nat) : numeralOf gl m ≠ gl.minus := by
  obtain ⟨-, rest⟩ := List.nodup_cons.mp distinct
  obtain ⟨fresh, -⟩ := List.nodup_cons.mp rest
  rintro same
  exact fresh (by simp [← same, numeralOf])

theorem minus_ne_blank : gl.minus ≠ gl.blank := by
  obtain ⟨fresh, -⟩ := List.nodup_cons.mp distinct
  rintro same
  exact fresh (by simp [← same])

theorem numeralOf_inj {m n : Nat} (h : numeralOf gl m = numeralOf gl n) : m % 10 = n % 10 := by
  obtain ⟨-, rest⟩ := List.nodup_cons.mp distinct
  obtain ⟨-, numerals⟩ := List.nodup_cons.mp rest
  exact (List.Nodup.getElem_inj_iff numerals).mp h

/-- A numeral reads as its digit. -/
theorem digitRead_numeralOf (m : Nat) : digitRead gl (numeralOf gl m) = some (m % 10) := by
  rw [digitRead, List.find?_range_eq_some]
  refine ⟨by simp [numeralOf], by simp; omega, fun d hd => ?_⟩
  have other : numeralOf gl d ≠ numeralOf gl m := fun same => by
    have := numeralOf_inj distinct same
    omega
  simp [other]

end Glyphs

/-! ### Reading a field -/

/-- The codes on places `n - 1` down to 0. -/
def fromPlace (shown : Nat → SegCode) : Nat → List SegCode
  | 0 => []
  | n + 1 => shown n :: fromPlace shown n

section Read
variable {gl : Glyphs} (distinct : DistinctGlyphs gl) {shown : Nat → SegCode}
include distinct

/-- The digits of `m` on the places below `n` spell `m` modulo `10 ^ n`. -/
theorem numeralsRead_fromPlace (m acc n : Nat) (digits : ∀ j < n, shown j = numeralOf gl (m / 10 ^ j)) :
    numeralsRead gl acc (fromPlace shown n) = some (acc * 10 ^ n + m % 10 ^ n) := by
  induction n generalizing acc with
  | zero => simp [fromPlace, numeralsRead, Nat.mod_one]
  | succ n ih =>
    rw [fromPlace, numeralsRead, digits n (Nat.lt_succ_self n), digitRead_numeralOf distinct]
    dsimp only
    rw [ih _ fun j hj => digits j (by omega), Nat.mod_pow_succ, Nat.pow_succ]
    congr 1
    ring

omit distinct in
theorem numberRead_blank (rest : List SegCode) : numberRead gl (gl.blank :: rest) = numberRead gl rest := by
  rw [numberRead, if_pos rfl]

theorem numberRead_minus {rest : List SegCode} {n : Nat} (h : rest ≠ []) (spelled : numeralsRead gl 0 rest = some n) :
    numberRead gl (gl.minus :: rest) = some (-(n : Int)) := by
  rw [numberRead, if_neg (minus_ne_blank distinct), if_pos rfl, if_neg h, spelled]
  rfl

theorem numberRead_numeral {m n : Nat} {rest : List SegCode}
    (spelled : numeralsRead gl 0 (numeralOf gl m :: rest) = some n) :
    numberRead gl (numeralOf gl m :: rest) = some (n : Int) := by
  rw [numberRead, if_neg (numeralOf_ne_blank distinct m), if_neg (numeralOf_ne_minus distinct m), spelled]
  rfl

omit distinct in
theorem placeWritten_of_le {m i j : Nat} (h : placeWritten m false i) (hj : j ≤ i) : placeWritten m false j := by
  obtain pad | zero | reached := h
  · cases pad
  · exact .inr (.inl (by omega))
  · exact .inr (.inr ((Nat.pow_le_pow_right (by decide) hj).trans reached))

omit distinct in
theorem not_placeWritten_iff {m j : Nat} : ¬ placeWritten m false j ↔ 0 < j ∧ m < 10 ^ j := by
  simp [placeWritten, Nat.pos_iff_ne_zero]

/-- From a place that has every digit below it, and the sign if there is one, the field spells `v`. -/
theorem numberRead_fromPlace {v : Int} {W n : Nat} (hn : 0 < n) (hnW : n ≤ W) (fits : v.natAbs < 10 ^ n)
    (sign : v < 0 → ¬ placeWritten v.natAbs false (n - 1)) (shows : ∀ j < n, FieldShows gl v W false j (shown j)) :
    numberRead gl (fromPlace shown n) = some v := by
  induction n with
  | zero => omega
  | succ n ih =>
    obtain ⟨minus, digit, blank⟩ := shows n (Nat.lt_succ_self n)
    by_cases negative : v < 0
    case pos =>
      have unwritten : ¬ placeWritten v.natAbs false n := sign negative
      obtain ⟨positive, small⟩ := not_placeWritten_iff.mp unwritten
      by_cases reached : placeWritten v.natAbs false (n - 1)
      case pos =>
        have digits : ∀ j < n, shown j = numeralOf gl (v.natAbs / 10 ^ j) := by
          intro j hj
          have written := placeWritten_of_le reached (by omega : j ≤ n - 1)
          obtain ⟨-, digit, -⟩ := shows j (by omega)
          refine digit ?_ written
          rintro ⟨-, ⟨noDigit, -⟩ | ⟨leftmost, -⟩⟩
          · exact noDigit written
          · omega
        have some_digits : fromPlace shown n ≠ [] := by
          obtain ⟨k, rfl⟩ := Nat.exists_eq_add_of_lt positive
          simp [fromPlace]
        have spelled := numeralsRead_fromPlace distinct _ 0 n digits
        rw [Nat.mod_eq_of_lt small] at spelled
        rw [fromPlace, minus ⟨negative, .inl ⟨unwritten, reached⟩⟩, numberRead_minus distinct some_digits spelled]
        congr 1
        omega
      case neg =>
        have unsigned : ¬ (v < 0 ∧ minusPlace v.natAbs false W n) := by
          rintro ⟨-, ⟨-, right⟩ | ⟨-, written⟩⟩
          · exact reached right
          · exact unwritten written
        rw [fromPlace, blank unsigned unwritten, numberRead_blank]
        exact ih positive (by omega) small (fun _ => reached) fun j hj => shows j (by omega)
    case neg =>
      have unsigned (j : Nat) : ¬ (v < 0 ∧ minusPlace v.natAbs false W j) := fun signed => negative signed.1
      by_cases written : placeWritten v.natAbs false n
      case pos =>
        have digits : ∀ j < n + 1, shown j = numeralOf gl (v.natAbs / 10 ^ j) := by
          intro j hj
          obtain ⟨-, digit, -⟩ := shows j hj
          exact digit (unsigned j) (placeWritten_of_le written (by omega))
        have spelled := numeralsRead_fromPlace distinct v.natAbs 0 (n + 1) digits
        rw [Nat.mod_eq_of_lt fits] at spelled
        rw [fromPlace, digits n (Nat.lt_succ_self n)] at spelled ⊢
        rw [numberRead_numeral distinct spelled]
        congr 1
        omega
      case neg =>
        obtain ⟨positive, small⟩ := not_placeWritten_iff.mp written
        rw [fromPlace, blank (unsigned n) written, numberRead_blank]
        exact ih positive (by omega) small (fun h => absurd h negative) fun j hj => shows j (by omega)

end Read

/-- Settles O39: from -999 the sign has a place left of the digits, and up to 9999 four places hold every digit. -/
theorem shownIntegersReadBack : Obligations.ShownIntegersReadBack := by
  intro s v distinct low high
  obtain ⟨showsInteger, -⟩ := setIntShowsTheInteger
  obtain ⟨t, ht, -, digits⟩ := showsInteger s v false 0
  have shows : ∀ j < 4, FieldShows s.glyphs v 4 false j (digitOf t.dbuf (4 - j)) := by
    intro j hj
    obtain ⟨code, shown, same⟩ := digits (3 - j) (by omega)
    have place : 3 - (3 - j) = j := by omega
    have index : 3 - j + 1 = 4 - j := by omega
    rw [place] at shown same
    rw [index] at same
    rw [same]
    simpa [dotted] using shown
  refine ⟨t, ht, numberRead_fromPlace distinct (by decide) le_rfl (by omega) (fun negative => ?_) shows⟩
  exact not_placeWritten_iff.mpr ⟨by decide, by omega⟩

end Sys2Proof.Machine
end

