-- ==== Sys2Proof/Proofs/Receiver.lean ====
section
/-! PROOFS. What a module on claimed lines sees of a commit, in either mode (R152, R153, R161, R170), and what it then
shows (R171). -/

namespace Sys2Proof.Machine

/-! ### Claimed lines between the events of a commit -/

/-- The lines are driven and the clock and the strobe rest low. -/
structure Idle (s : State) : Prop where
  stb : s.stb = ⟨.output, false⟩
  clk : s.clk = ⟨.output, false⟩
  data : s.data.dir = .output

theorem idle_of_claimed {s : State} (h : LinesFollowClaim s) (claimed : s.claimed = true) : Idle s :=
  ⟨h.claimedStb claimed, h.claimedClk claimed, h.claimedData claimed⟩

/-- A request for the level that the clock or the strobe has changes no line. -/
theorem Idle.emit_low {s : State} (idle : Idle s) {l : Line} (hl : l ≠ .data) : Idle (emit (.lvl l false) s) := by
  obtain ⟨stb, clk, data⟩ := idle
  cases l with
  | data => exact absurd rfl hl
  | stb | clk => constructor <;> simp [emit, applyEvent, State.withLvl, stb, clk, data]

theorem Idle.emitAll_bitEvents {s : State} (idle : Idle s) (v : Bool) : Idle (emitAll (bitEvents v) s) := by
  obtain ⟨stb, clk, data⟩ := idle
  constructor <;> simp [bitEvents, emitAll, emit, applyEvent, State.withLvl, stb, clk, data]

theorem Idle.emitAll_bits {s : State} (idle : Idle s) (bs : List Bool) : Idle (emitAll (bs.flatMap bitEvents) s) := by
  induction bs generalizing s with
  | nil => exact idle
  | cons b bs ih =>
    rw [List.flatMap_cons, emitAll_append]
    exact ih (idle.emitAll_bitEvents b)

theorem Idle.emit_spiByte {s : State} (idle : Idle s) (b : BitVec 8) : Idle (emit (.spiByte b) s) := by
  obtain ⟨stb, clk, data⟩ := idle
  constructor <;> simp [emit, applyEvent, State.withLvl, stb, clk, data]

section
variable (board : Nat → Line → Bool)

/-- The strobe pulse is one rising edge of `STB` (R159). -/
theorem observe_endWrite {s : State} (idle : Idle s) : observe board endWrite s = [.strobe] := by
  have low : s.pin .stb = some false := by simp [State.pin, idle.stb]
  have high : (emit (.lvl .stb true) s).pin .stb = some true := emit_lvl_pin_same (by simp [idle.stb]) true
  have up : rises s (emit (.lvl .stb true) s) .stb = true := by simp [rises, low, high]
  have pulse : signalsOf board s (.lvl .stb true) = [.strobe] := by
    simp [signalsOf, up, rises_emit_lvl_of_ne]
  simp [endWrite, observe, pulse, signalsOf_lvl_false]

/-- R157: the bits clocked out, between requests for levels that the lines have, and the strobe. -/
theorem observe_bitbang {s : State} (idle : Idle s) (bs : List Bool) :
    observe board (startWrite .bitbang ++ bs.flatMap bitEvents ++ endWrite) s = bs.map .bit ++ [.strobe] := by
  have started : Idle (emitAll (startWrite .bitbang) s) := 
    (idle.emit_low (l := .clk) (by decide)).emit_low (l := .stb) (by decide)
  have silent : observe board (startWrite .bitbang) s = [] := by simp [startWrite, observe, signalsOf_lvl_false]
  rw [observe_append, observe_append, silent, observe_bits board bs started.clk started.data, emitAll_append,
    observe_endWrite board (started.emitAll_bits bs), List.nil_append]

/-- R156: the same from serial bytes, each its eight bits. -/
theorem observe_spiBytes {s : State} (idle : Idle s) (bytes : List (BitVec 8)) :
    observe board (bytes.map .spiByte ++ endWrite) s = bytes.flatMap (fun b => (bitsDown b 8).map .bit) ++ [.strobe] := by
  induction bytes generalizing s with
  | nil => exact observe_endWrite board idle
  | cons b bytes ih =>
    rw [List.map_cons, List.cons_append, observe, ih (idle.emit_spiByte b), List.flatMap_cons, List.append_assoc]
    rfl

end

/-- The bits of a word down to bit `lo` are those of its field there. -/
theorem bitsDown_add {k : Nat} (x : BitVec k) (lo : Nat) {m n : Nat} (h : m ≤ n) :
    bitsDown x (lo + m) = bitsDown (x.extractLsb' lo n) m ++ bitsDown x lo := by
  induction m with
  | zero => rfl
  | succ m ih =>
    have inside : m < n := h
    rw [Nat.add_succ, bitsDown, ih (by omega), bitsDown]
    simp [inside]

theorem bitsDown_bytes (x : Word) :
    bitsDown x 32 = bitsDown (x.extractLsb' 24 8) 8 ++ (bitsDown (x.extractLsb' 16 8) 8 ++
      (bitsDown (x.extractLsb' 8 8) 8 ++ (bitsDown (x.extractLsb' 0 8) 8 ++ []))) := by
  rw [bitsDown_add x 24 (m := 8) le_rfl, bitsDown_add x 16 (m := 8) le_rfl, bitsDown_add x 8 (m := 8) le_rfl,
    bitsDown_add x 0 (m := 8) le_rfl]
  rfl

/-- Both modes present the bits on the wire, most significant first, and one strobe (R161). -/
theorem observe_commitTrace (board : Nat → Line → Bool) {s : State} (idle : Idle s) (mode : Mode) (pol : Polarity)
    (w : Word) :
    observe board (commitTrace mode pol w) s = (bitsDown (wireWord pol w) 32).map .bit ++ [.strobe] := by
  cases mode with
  | bitbang => rw [commitTrace_bitbang, observe_bitbang board idle]
  | burst =>
    have started : Idle (emit (.lvl .stb false) s) := idle.emit_low (by decide)
    have sent := observe_spiBytes board started
      [(wireWord pol w).extractLsb' 24 8, (wireWord pol w).extractLsb' 16 8, (wireWord pol w).extractLsb' 8 8,
        (wireWord pol w).extractLsb' 0 8]
    rw [bitsDown_bytes]
    simpa [commitTrace, observe, signalsOf_lvl_false, endWrite] using sent

/-! ### What a commanded buffer write shows -/

/-- A buffer-writing command on claimed lines issues the commit of its buffer. -/
theorem exec_writesBuffer_claimed {i : Instr} {s : State} (hi : writesBuffer i = true) (claimed : s.claimed = true) :
    ∃ t, exec i s = .next t ∧ t.trace = s.trace ++ commitTrace s.mode s.pol t.dbuf := by
  obtain ⟨t, ht, committed⟩ := exec_writesBuffer_committed hi s
  exact ⟨t, ht, by rw [committed.trace, if_pos claimed]⟩

/-- Settles O26: the bits on the wire are those of `DBUF ^ INV`. -/
theorem bothModesPresentTheSameBits : Obligations.BothModesPresentTheSameBits := by
  intro i s board hi claimed lines
  obtain ⟨t, ht, trace⟩ := exec_writesBuffer_claimed hi claimed
  refine ⟨t, _, ht, trace, ?_⟩
  rw [observe_commitTrace board (idle_of_claimed lines claimed), bitsDown_eq_map_range, wireWord_eq_xor_inv, List.map_map]
  rfl

/-! ### The receiver -/

/-- A receiver shifts a bit in as PUSHBIT does (R170, R210). -/
theorem react_bit (r : Receiver) (v : Bool) : react r (.bit v) = { r with sr := pushWord r.sr v } := rfl

/-- The register after the last `n` bits of `x`. -/
theorem foldl_react_bitsDown (v x : Word) (n : Nat) (hn : n ≤ 32) (r : Receiver) (hr : r.sr = pushedDownTo v x n) :
    (((bitsDown x n).map Signal.bit).foldl react r).sr = x := by
  induction n generalizing r with
  | zero => exact hr.trans (pushedDownTo_zero v x)
  | succ n ih =>
    refine ih (by omega) _ ?_
    rw [react_bit, hr, pushWord_pushedDownTo v x hn]

/-- 32 bits and a strobe replace whatever the receiver held. -/
theorem foldl_react_latch (x : Word) (r : Receiver) :
    (((bitsDown x 32).map Signal.bit ++ [Signal.strobe]).foldl react r).latch = x := by
  rw [List.foldl_append]
  exact foldl_react_bitsDown r.sr x 32 le_rfl r (pushedDownTo_all r.sr x).symm

theorem wireWord_xor_inv (pol : Polarity) (w : Word) : wireWord pol w ^^^ inv pol = w := by
  rw [wireWord_eq_xor_inv, BitVec.xor_assoc, BitVec.xor_self, BitVec.xor_zero]

/-- Settles O27: the latch holds the word on the wire, and the wiring inverts it back. -/
theorem theModuleShowsTheBuffer : Obligations.TheModuleShowsTheBuffer := by
  intro i s board r hi claimed lines
  obtain ⟨t, ht, trace⟩ := exec_writesBuffer_claimed hi claimed
  have latched : (receive board (commitTrace s.mode s.pol t.dbuf) s r).latch = wireWord s.pol t.dbuf := by
    rw [receive, observe_commitTrace board (idle_of_claimed lines claimed), foldl_react_latch]
  exact ⟨t, _, ht, trace, latched, by rw [lit, latched, wireWord_xor_inv]⟩

end Sys2Proof.Machine
end

