-- ==== Sys2Proof/Proofs/Assembling.lean ====
section
/-! PROOFS. The assembler (R80): which operands it reads, which lines it refuses, and that an assembled word decodes to its
line's command. -/

namespace Sys2Proof.Machine

/-! ### A line and its command -/

theorem assemble_eq_some_iff {gl : Glyphs} {l : AsmLine} {w : CmdWord} :
    assemble gl l = some w ↔ ∃ i, commandOf gl l = some i ∧ WellFormed i = true ∧ encode i = w := by
  simp [assemble, Option.bind_eq_some_iff]

theorem assemble_of_commandOf {gl : Glyphs} {l : AsmLine} {i : Instr} (h : commandOf gl l = some i)
    (wf : WellFormed i = true) : assemble gl l = some (encode i) :=
  assemble_eq_some_iff.mpr ⟨i, h, wf, rfl⟩

theorem assemble_eq_none {gl : Glyphs} {l : AsmLine} (h : ∀ i, commandOf gl l = some i → WellFormed i ≠ true) :
    assemble gl l = none :=
  Option.eq_none_iff_forall_ne_some.mpr fun _ assembled =>
    have ⟨i, command, wf, _⟩ := assemble_eq_some_iff.mp assembled
    h i command wf

theorem assemble_eq_none_of_commandOf {gl : Glyphs} {l : AsmLine} (h : commandOf gl l = none) :
    assemble gl l = none :=
  assemble_eq_none fun i command => by simp [h] at command

/-- Settles O47: an assembled word is an encoding. -/
theorem assembledLinesDecode : Obligations.AssembledLinesDecode := by
  intro gl l w h
  obtain ⟨i, command, wf, rfl⟩ := assemble_eq_some_iff.mp h
  exact ⟨i, command, wf, decodeOfEncodeGivesTheCommand i wf⟩

/-! ### Operands -/

theorem asNat_of_lt {bound n : Nat} (h : n < bound) : asNat bound (.number n) = some n := by
  simp [asNat, h]

theorem asNat_eq_none {bound : Nat} {n : Int} (h : ¬ (0 ≤ n ∧ n < bound)) : asNat bound (.number n) = none :=
  if_neg h

theorem asBit_bitOperand (b : Bool) : asBit (bitOperand b) = some b := by
  cases b <;> rfl

theorem asBit_eq_none {n : Int} (h : ¬ (0 ≤ n ∧ n < 2)) : asBit (.number n) = none := by
  rw [asBit, asNat_eq_none (by exact_mod_cast h), Option.map_none]

theorem asSegCode_eq_none (gl : Glyphs) {n : Int} (h : ¬ (0 ≤ n ∧ n < 256)) : asSegCode gl (.number n) = none := by
  rw [asSegCode, asNat_eq_none (by exact_mod_cast h), Option.map_none]

theorem glyphCode_of_writesCode {gl : Glyphs} {g : GlyphName} {code : SegCode} (h : WritesCode gl (.glyph g false) code) :
    glyphCode gl g = code := by
  cases h with
  | num d => simp [glyphCode, numeralOf, Nat.mod_eq_of_lt d.isLt]
  | _ => rfl

theorem asSegCode_of_writesCode {gl : Glyphs} {a : AsmOperand} {code : SegCode} (h : WritesCode gl a code) :
    asSegCode gl a = some code := by
  cases h with
  | number n h => rw [asSegCode, asNat_of_lt h, Option.map_some]
  | plusDP g code h => rw [asSegCode, if_pos rfl, glyphCode_of_writesCode h]
  | num d => exact congrArg some (glyphCode_of_writesCode (.num d))
  | _ => rfl

/-! ### Lines with operands in range -/

/-- Settles O51: each operand in range is read as its value, so the line stands for its command. -/
theorem eachSyntaxAssemblesToItsCommand : Obligations.EachSyntaxAssemblesToItsCommand := by
  intro gl
  refine ⟨?setDigits, ?setSeg, rfl, ?setInt, ?setFloat, ?signed, ?setScore, ?setIp, ?pushBit, ?getPix, rfl, rfl⟩
  case setDigits =>
    intro a1 a2 a3 a4 d1 d2 d3 d4 h1 h2 h3 h4
    refine assemble_of_commandOf ?_ rfl
    simp [commandOf, asSegCode_of_writesCode h1, asSegCode_of_writesCode h2, asSegCode_of_writesCode h3,
      asSegCode_of_writesCode h4]
  case setSeg =>
    intro w
    refine assemble_of_commandOf ?_ rfl
    simp [commandOf, asNat_of_lt w.isLt]
  case setInt =>
    intro v pad dots low high
    refine assemble_of_commandOf ?_ (decide_eq_true (by omega))
    simp [commandOf, asInt, asBit_bitOperand, asNat_of_lt (bound := 16) dots.isLt]
  case setFloat =>
    intro x p pad hp
    refine assemble_of_commandOf ?_ (decide_eq_true (by omega))
    simp [commandOf, asBinary32, asBit_bitOperand, asNat_of_lt (bound := 16) (n := p) (by omega)]
  case signed =>
    intro v pad low high
    have fits : fitsSigned32 v = true := decide_eq_true (by omega)
    exact ⟨assemble_of_commandOf (by simp [commandOf, asInt, asBit_bitOperand]) fits,
      assemble_of_commandOf (by simp [commandOf, asInt, asBit_bitOperand]) fits⟩
  case setScore =>
    intro h m blink now hh hm hnow
    refine assemble_of_commandOf ?_ (decide_eq_true (by omega))
    simp [commandOf, asBit_bitOperand, asNat_of_lt (bound := 256) (n := h) (by omega),
      asNat_of_lt (bound := 256) (n := m) (by omega), asNat_of_lt (bound := 4294967296) (n := now) (by omega)]
  case setIp =>
    intro o ho
    refine assemble_of_commandOf ?_ (decide_eq_true (by omega))
    simp [commandOf, asNat_of_lt (bound := 256) (n := o) (by omega)]
  case pushBit =>
    intro b
    refine assemble_of_commandOf ?_ rfl
    simp [commandOf, asBit_bitOperand]
  case getPix =>
    intro i hi
    refine assemble_of_commandOf ?_ (decide_eq_true (by omega))
    simp [commandOf, asNat_of_lt (bound := 32) (n := i) (by omega)]

/-! ### Lines with an operand out of range -/

/-- Settles O48: no operand is read from an integer out of range; one read as a plain integer makes a command with no
encoding. -/
theorem operandsOutOfRangeAreRefused : Obligations.OperandsOutOfRangeAreRefused := by
  intro gl n a b c
  refine ⟨?signed, ?word, ?byte, ?index, ?nibble, ?bit⟩
  case signed =>
    intro h
    have out : fitsSigned32 n ≠ true := fun fits => h (by have := of_decide_eq_true fits; omega)
    refine ⟨assemble_eq_none fun i command => ?_, assemble_eq_none fun i command => ?_,
      assemble_eq_none fun i command => ?_⟩
    all_goals
      simp only [commandOf, asInt, Option.bind_eq_bind, Option.bind_some, Option.bind_eq_some_iff, Option.pure_def,
        Option.some.injEq] at command
    · obtain ⟨pad, -, dots, -, rfl⟩ := command
      exact out
    · obtain ⟨pad, -, rfl⟩ := command
      exact out
    · obtain ⟨pad, -, rfl⟩ := command
      exact out
  case word =>
    intro h
    have out : asNat 4294967296 (.number n) = none := asNat_eq_none (by omega)
    refine ⟨?_, ?_⟩
    all_goals exact assemble_eq_none_of_commandOf (by simp [commandOf, out])
  case byte =>
    intro h
    have out : asNat 256 (.number n) = none := asNat_eq_none (by omega)
    have outCode : asSegCode gl (.number n) = none := asSegCode_eq_none gl (by omega)
    refine ⟨?_, ?_, ?_, ?_, ?_, ?_, ?_⟩
    all_goals exact assemble_eq_none_of_commandOf (by simp [commandOf, out, outCode])
  case index =>
    intro h
    have out : asNat 32 (.number n) = none := asNat_eq_none (by omega)
    exact assemble_eq_none_of_commandOf (by simp [commandOf, out])
  case nibble =>
    intro h
    have out : asNat 16 (.number n) = none := asNat_eq_none (by omega)
    refine ⟨?_, ?_⟩
    all_goals exact assemble_eq_none_of_commandOf (by simp [commandOf, out])
  case bit =>
    intro h
    have out : asBit (.number n) = none := asBit_eq_none (by omega)
    refine ⟨?_, ?_, ?_, ?_, ?_, ?_⟩
    all_goals exact assemble_eq_none_of_commandOf (by simp [commandOf, out])

end Sys2Proof.Machine
end

