-- ==== Sys2Proof/Proofs/Rounding.lean ====
section
/-! PROOFS. Rounding to binary32 (R112, D6, D7). Magnitudes are counted in units of 2^-149, the least binary32 magnitude: a
finite datum is `m * 2^k` of them, with `m` below 2^24. -/

namespace Sys2Proof.Machine

/-! ### The nearest integer -/

/-- `M` is an integer nearest to `ρ`, and an even one where two are as near. -/
structure NearestEven (M : Nat) (ρ : Rat) : Prop where
  near : |(M : Rat) - ρ| ≤ 1 / 2
  tie : |(M : Rat) - ρ| = 1 / 2 → M % 2 = 0

theorem nearestEven_spec (n : Nat) {d : Nat} (hd : 0 < d) : NearestEven (nearestEven n d) (n / d) := by
  have positive : (0 : Rat) < d := by exact_mod_cast hd
  have parts : (n : Rat) / d = (n / d : Nat) + (n % d : Nat) / d := by
    rw [div_eq_iff positive.ne', add_mul, div_mul_cancel₀ _ positive.ne']
    exact_mod_cast (Nat.div_add_mod' n d).symm
  have below : ((n % d : Nat) : Rat) / d < 1 := by
    rw [div_lt_one positive]
    exact_mod_cast Nat.mod_lt n hd
  have half_le : 1 / 2 ≤ ((n % d : Nat) : Rat) / d ↔ d ≤ 2 * (n % d) := by
    rw [div_le_div_iff₀ two_pos positive, one_mul, mul_comm]
    exact_mod_cast Iff.rfl
  have le_half : ((n % d : Nat) : Rat) / d ≤ 1 / 2 ↔ 2 * (n % d) ≤ d := by
    rw [div_le_div_iff₀ positive two_pos, one_mul, mul_comm]
    exact_mod_cast Iff.rfl
  have nonneg : (0 : Rat) ≤ ((n % d : Nat) : Rat) / d := by positivity
  rw [nearestEven, parts]
  revert below half_le le_half nonneg
  generalize ((n % d : Nat) : Rat) / d = x
  intro below half_le le_half nonneg
  split
  case isTrue up =>
    have distance : |((n / d + 1 : Nat) : Rat) - ((n / d : Nat) + x)| = 1 - x := by
      rw [Nat.cast_add_one, abs_of_nonneg] <;> linarith
    constructor
    · have := half_le.mpr (by omega)
      rw [distance]
      linarith
    · intro tie
      have := le_half.mp (by rw [distance] at tie; linarith)
      omega
  case isFalse down =>
    have distance : |((n / d : Nat) : Rat) - ((n / d : Nat) + x)| = x := by
      rw [abs_of_nonpos] <;> linarith
    constructor
    · rw [distance]
      exact le_half.mpr (by omega)
    · intro tie
      have := half_le.mp (by rw [distance] at tie; linarith)
      omega

/-- No integer is nearer, and another as near makes a tie. -/
theorem NearestEven.le_abs {M : Nat} {ρ : Rat} (h : NearestEven M ρ) (z : Nat) :
    |(M : Rat) - ρ| ≤ |(z : Rat) - ρ| ∧ (|(M : Rat) - ρ| = |(z : Rat) - ρ| → z ≠ M → M % 2 = 0) := by
  by_cases same : z = M
  · subst same
    exact ⟨le_rfl, fun _ other => absurd rfl other⟩
  · have apart : (1 : Rat) ≤ |(z : Rat) - M| := by
      have : (1 : Int) ≤ |(z : Int) - M| := Int.one_le_abs (by omega)
      exact_mod_cast this
    have between := abs_sub_le (z : Rat) ρ M
    rw [abs_sub_comm ρ] at between
    have near := h.near
    exact ⟨by linarith, fun equal _ => h.tie (by linarith)⟩

/-! ### The significand and the exponent -/

/-- `m * 2^k` is the rounding of the magnitude `R`: the last place `2^k` gives `R` 24 bits, or is the least. -/
structure Rounds (R : Rat) (m k : Nat) : Prop where
  lower : k = 0 ∨ 2 ^ 23 * 2 ^ k ≤ R
  upper : R < 2 ^ 24 * 2 ^ k
  nearest : NearestEven m (R / 2 ^ k)

theorem roundMagnitude_rounds (n : Nat) {d : Nat} (hd : 0 < d) :
    Rounds (n / d * 2 ^ 149) (roundMagnitude n d).1 (roundMagnitude n d).2 := by
  have positive : (0 : Rat) < d := by exact_mod_cast hd
  have units : (n / d * 2 ^ 149 : Rat) = (n / d * 2 ^ 126) * 2 ^ 23 := by ring
  rw [roundMagnitude]
  dsimp only
  generalize hk : Nat.log2 (n * 2 ^ 126 / d) = k
  constructor
  case lower =>
    by_cases zero : n * 2 ^ 126 / d = 0
    · exact .inl (by rw [← hk, zero]; rfl)
    · have reached : 2 ^ k ≤ n * 2 ^ 126 / d := by
        rw [← hk]
        exact Nat.log2_self_le zero
      rw [Nat.le_div_iff_mul_le hd] at reached
      have : (2 ^ k * d : Rat) ≤ n * 2 ^ 126 := by exact_mod_cast reached
      refine .inr ?_
      rw [units, mul_comm]
      gcongr
      rw [div_mul_eq_mul_div, le_div_iff₀ positive]
      exact this
  case upper =>
    have bounded : n * 2 ^ 126 / d < 2 ^ (k + 1) := by
      rw [← hk]
      exact Nat.lt_log2_self
    rw [Nat.div_lt_iff_lt_mul hd] at bounded
    have : (n * 2 ^ 126 : Rat) < 2 ^ (k + 1) * d := by exact_mod_cast bounded
    have scaled : (n / d * 2 ^ 126 : Rat) < 2 ^ (k + 1) := by
      rw [div_mul_eq_mul_div, div_lt_iff₀ positive]
      exact this
    rw [units, show (2 ^ 24 * 2 ^ k : Rat) = 2 ^ (k + 1) * 2 ^ 23 by ring]
    gcongr
  case nearest =>
    have spec := nearestEven_spec (n * 2 ^ 149) (Nat.mul_pos hd (Nat.two_pow_pos k))
    have same : (n / d * 2 ^ 149 / 2 ^ k : Rat) = (n * 2 ^ 149 : Nat) / (d * 2 ^ k : Nat) := by
      simp only [Nat.cast_mul, Nat.cast_pow, Nat.cast_ofNat, div_mul_eq_mul_div, div_div]
    rw [same]
    exact spec

/-! ### What a rounding is nearest to, and when it overflows -/

/-- An even integer is reached exactly from half a unit below it. -/
theorem NearestEven.le_iff {M c : Nat} {ρ : Rat} (h : NearestEven M ρ) (even : c % 2 = 0) :
    c ≤ M ↔ (c : Rat) - 1 / 2 ≤ ρ := by
  obtain ⟨below, above⟩ := abs_le.mp h.near
  constructor
  · intro reached
    have : (c : Rat) ≤ M := by exact_mod_cast reached
    linarith
  · intro reached
    by_contra less
    have next : (M : Rat) + 1 ≤ c := by exact_mod_cast Nat.not_le.mp less
    have half : (M : Rat) - ρ = -(1 / 2) := by linarith
    have same : (M : Rat) + 1 = c := by linarith
    have : M + 1 = c := by exact_mod_cast same
    have := h.tie (by rw [half]; norm_num)
    omega

section Rounds
variable {R : Rat} {m k : Nat} (h : Rounds R m k)
include h

/-- No multiple of the last place is nearer. -/
theorem Rounds.le_abs_multiple (z : Nat) :
    |(m * 2 ^ k : Rat) - R| ≤ |(z * 2 ^ k : Rat) - R| ∧
      (|(m * 2 ^ k : Rat) - R| = |(z * 2 ^ k : Rat) - R| → z ≠ m → m % 2 = 0) := by
  have pos : (0 : Rat) < 2 ^ k := by positivity
  have scaled (x : Rat) : |x * 2 ^ k - R| = |x - R / 2 ^ k| * 2 ^ k := by
    rw [← abs_of_pos pos, ← abs_mul, abs_of_pos pos, sub_mul, div_mul_cancel₀ _ pos.ne']
  obtain ⟨closest, tie⟩ := h.nearest.le_abs z
  rw [scaled, scaled]
  exact ⟨mul_le_mul_of_nonneg_right closest pos.le, fun equal => tie (mul_right_cancel₀ pos.ne' equal)⟩

/-- A rounding carries into a 25th bit at most. -/
theorem Rounds.le_two_pow : m ≤ 2 ^ 24 := by
  have scaled : R / 2 ^ k < 2 ^ 24 := (div_lt_iff₀ (by positivity)).mpr h.upper
  obtain ⟨-, near⟩ := abs_le.mp h.nearest.near
  have : (m : Rat) < 2 ^ 24 + 1 := by linarith
  exact Nat.lt_succ_iff.mp (by exact_mod_cast this)

theorem Rounds.normal : k = 0 ∨ 2 ^ 23 ≤ m := by
  refine h.lower.imp_right fun lower => ?_
  have scaled : 2 ^ 23 ≤ R / 2 ^ k := (le_div_iff₀ (by positivity)).mpr lower
  obtain ⟨near, -⟩ := abs_le.mp h.nearest.near
  have : (2 ^ 23 : Rat) < m + 1 := by linarith
  exact Nat.lt_succ_iff.mp (by exact_mod_cast this)

/-- No magnitude with a significand below 2^24 is nearer, and another as near makes the rounded significand even. -/
theorem Rounds.le_abs {a : Nat} (ha : a < 2 ^ 24) (j : Nat) :
    |(m * 2 ^ k : Rat) - R| ≤ |(a * 2 ^ j : Rat) - R| ∧
      (|(m * 2 ^ k : Rat) - R| = |(a * 2 ^ j : Rat) - R| → (a * 2 ^ j : Rat) ≠ m * 2 ^ k → m % 2 = 0) := by
  obtain aligned | finer : k ≤ j ∨ j < k := by omega
  · obtain ⟨i, rfl⟩ := Nat.exists_eq_add_of_le' aligned
    obtain ⟨closest, tie⟩ := h.le_abs_multiple (a * 2 ^ i)
    have multiple : (a * 2 ^ (i + k) : Rat) = (a * 2 ^ i : Nat) * 2 ^ k := by
      push_cast
      ring
    rw [multiple]
    exact ⟨closest, fun equal other => tie equal fun same => other (by rw [same])⟩
  · obtain zero | lower := h.lower
    · omega
    · obtain ⟨i, rfl⟩ := Nat.exists_eq_add_of_lt finer
      obtain ⟨closest, -⟩ := h.le_abs_multiple (2 ^ 23)
      have below : (a * 2 ^ j : Rat) < 2 ^ 23 * 2 ^ (j + i + 1) :=
        calc (a * 2 ^ j : Rat) < 2 ^ 24 * 2 ^ j := by gcongr; exact_mod_cast ha
          _ ≤ 2 ^ 24 * 2 ^ (j + i) := by gcongr <;> simp
          _ = 2 ^ 23 * 2 ^ (j + i + 1) := by ring
      rw [Nat.cast_pow, Nat.cast_ofNat, abs_of_nonpos (sub_nonpos.mpr lower)] at closest
      rw [abs_of_nonpos (a := (a * 2 ^ j : Rat) - R) (by linarith)]
      exact ⟨by linarith, fun equal => by linarith⟩

/-- A rounding leaves the finite magnitudes exactly from half a unit above the largest on (D7). -/
theorem Rounds.overflow_iff : 2 ^ 277 ≤ m * 2 ^ k ↔ (2 ^ 277 - 2 ^ 252 : Rat) ≤ R := by
  have top : (2 ^ 277 : Nat) = 2 ^ 25 * 2 ^ 252 := by rw [← pow_add]
  have topRat : (2 ^ 277 : Rat) = 2 ^ 25 * 2 ^ 252 := by rw [← pow_add]
  rw [top, topRat]
  obtain small | rfl | large : k ≤ 252 ∨ k = 253 ∨ 254 ≤ k := by omega
  case inl =>
    have finite : m * 2 ^ k < 2 ^ 25 * 2 ^ 252 :=
      calc m * 2 ^ k ≤ 2 ^ 24 * 2 ^ 252 := Nat.mul_le_mul h.le_two_pow (Nat.pow_le_pow_right two_pos small)
        _ < 2 ^ 25 * 2 ^ 252 := by norm_num
    have below : R < 2 ^ 25 * 2 ^ 252 - 2 ^ 252 :=
      calc R < 2 ^ 24 * 2 ^ k := h.upper
        _ ≤ 2 ^ 24 * 2 ^ 252 := by gcongr; norm_num
        _ < 2 ^ 25 * 2 ^ 252 - 2 ^ 252 := by norm_num
    exact iff_of_false (not_le.mpr finite) (not_le.mpr below)
  case inr.inl =>
    have carried : 2 ^ 25 * 2 ^ 252 ≤ m * 2 ^ 253 ↔ 2 ^ 24 ≤ m := by
      rw [show (2 ^ 25 * 2 ^ 252 : Nat) = 2 ^ 24 * 2 ^ 253 by norm_num, Nat.mul_le_mul_right_iff (by norm_num)]
    have midpoint : (2 ^ 25 * 2 ^ 252 - 2 ^ 252 : Rat) ≤ R ↔ ((2 ^ 24 : Nat) : Rat) - 1 / 2 ≤ R / 2 ^ 253 := by
      rw [le_div_iff₀ (by norm_num)]
      norm_num
    rw [carried, midpoint, h.nearest.le_iff (by norm_num)]
  case inr.inr =>
    have normal : 2 ^ 23 ≤ m := h.normal.resolve_left (by omega)
    have reached : 2 ^ 23 * 2 ^ k ≤ R := h.lower.resolve_left (by omega)
    have infinite : 2 ^ 25 * 2 ^ 252 ≤ m * 2 ^ k :=
      calc 2 ^ 25 * 2 ^ 252 = 2 ^ 23 * 2 ^ 254 := by norm_num
        _ ≤ m * 2 ^ k := Nat.mul_le_mul normal (Nat.pow_le_pow_right two_pos large)
    have above : (2 ^ 25 * 2 ^ 252 - 2 ^ 252 : Rat) ≤ R :=
      calc (2 ^ 25 * 2 ^ 252 - 2 ^ 252 : Rat) ≤ 2 ^ 23 * 2 ^ 254 := by norm_num
        _ ≤ 2 ^ 23 * 2 ^ k := by gcongr; norm_num
        _ ≤ R := reached
    exact iff_of_true infinite above

end Rounds

end Sys2Proof.Machine
end

