-- ==== Sys2Proof/Proofs/Binary32.lean ====
section
/-! PROOFS. The binary32 data (D6) as significands and exponents, and rounding to them (R112): to the nearest, with ties to
even, with an overflow from half a unit above the largest on (D7). -/

namespace Sys2Proof.Machine

/-- Plus or minus `m * 2^k` units of 2^-149. -/
def signedUnits (negative : Bool) (m k : Nat) : Rat :=
  (if negative then -1 else 1) * (m * 2 ^ k) / 2 ^ 149

theorem signedUnits_zero (negative : Bool) (k : Nat) : signedUnits negative 0 k = 0 := by
  simp [signedUnits]

theorem mkRat_signed (negative : Bool) (m k c : Nat) :
    mkRat (if negative then -((m * 2 ^ k : Nat) : Int) else ((m * 2 ^ k : Nat) : Int)) (2 ^ c) =
      (if negative then -1 else 1) * (m * 2 ^ k) / 2 ^ c := by
  rw [Rat.mkRat_eq_div]
  cases negative <;> simp

/-! ### The fields of a datum -/

section Datum
variable (x : BitVec 32)

/-- The biased exponent. -/
def exponentField : Nat := (x.extractLsb' 23 8).toNat

/-- The stored fraction. -/
def fractionField : Nat := (x.extractLsb' 0 23).toNat

/-- The significand, with the leading 1 of a normal datum. -/
def significand : Nat := if exponentField x = 0 then fractionField x else 2 ^ 23 + fractionField x

theorem significand_lt : significand x < 2 ^ 24 := by
  have := (x.extractLsb' 0 23).isLt
  unfold significand fractionField
  split <;> omega

/-- A datum's significand has 24 bits unless its exponent is the least. -/
theorem significand_normal : exponentField x - 1 = 0 ∨ 2 ^ 23 ≤ significand x := by
  unfold significand
  split <;> omega

theorem fractionField_eq : fractionField x = x.toNat % 2 ^ 23 := by
  simp [fractionField, BitVec.extractLsb'_toNat]

theorem exponentField_eq : exponentField x = x.toNat / 2 ^ 23 % 2 ^ 8 := by
  simp [exponentField, BitVec.extractLsb'_toNat, Nat.shiftRight_eq_div_pow]

/-- Bit 0 of a datum is the parity of its significand. -/
theorem getLsbD_zero_eq : x.getLsbD 0 = decide (significand x % 2 = 1) := by
  have parity : significand x % 2 = x.toNat % 2 := by
    unfold significand
    rw [fractionField_eq]
    split <;> omega
  rw [parity]
  exact Nat.testBit_zero x.toNat

/-- The value of a finite datum. -/
theorem binary32Value_eq :
    binary32Value x =
      if exponentField x = 255 then none else some (signedUnits (x.getLsbD 31) (significand x) (exponentField x - 1)) := by
  have units : (if exponentField x = 0 then fractionField x * 2 else (2 ^ 23 + fractionField x) * 2 ^ exponentField x) =
      significand x * 2 ^ (exponentField x - 1 + 1) := by
    unfold significand
    split
    case isTrue zero => rw [zero, Nat.zero_sub, zero_add, pow_one]
    case isFalse positive => rw [Nat.sub_add_cancel (Nat.pos_of_ne_zero positive)]
  have value : mkRat (if x.getLsbD 31 then -((significand x * 2 ^ (exponentField x - 1 + 1) : Nat) : Int)
      else ((significand x * 2 ^ (exponentField x - 1 + 1) : Nat) : Int)) (2 ^ 150) =
      signedUnits (x.getLsbD 31) (significand x) (exponentField x - 1) := by
    rw [mkRat_signed, signedUnits]
    ring
  rw [← value, ← units]
  rfl

end Datum

theorem exists_of_binary32Value {x : BitVec 32} {v : Rat} (h : binary32Value x = some v) :
    exponentField x < 255 ∧ v = signedUnits (x.getLsbD 31) (significand x) (exponentField x - 1) := by
  have bound : exponentField x < 2 ^ 8 := (x.extractLsb' 23 8).isLt
  rw [binary32Value_eq] at h
  split at h
  · cases h
  · exact ⟨by omega, (Option.some.inj h).symm⟩

/-! ### The datum of a significand and an exponent -/

/-- The pattern of plus or minus `m * 2^k` units: a 24-bit significand carries its leading 1 into the exponent. -/
def packBinary32 (negative : Bool) (m k : Nat) : BitVec 32 :=
  BitVec.ofNat 32 ((if negative then 2 ^ 31 else 0) + (k * 2 ^ 23 + m))

theorem packBinary32_fields (negative : Bool) {m k : Nat} (h : k * 2 ^ 23 + m < 2 ^ 31) :
    (packBinary32 negative m k).getLsbD 31 = negative ∧
      exponentField (packBinary32 negative m k) = (k * 2 ^ 23 + m) / 2 ^ 23 ∧
      fractionField (packBinary32 negative m k) = (k * 2 ^ 23 + m) % 2 ^ 23 := by
  have toNat : (packBinary32 negative m k).toNat = (if negative then 2 ^ 31 else 0) + (k * 2 ^ 23 + m) := by
    rw [packBinary32, BitVec.toNat_ofNat, Nat.mod_eq_of_lt]
    split <;> omega
  refine ⟨?_, ?_, ?_⟩
  · rw [BitVec.getLsbD, toNat, Nat.testBit_eq_decide_div_mod_eq]
    cases negative <;> simp <;> omega
  · rw [exponentField_eq, toNat]
    split <;> omega
  · rw [fractionField_eq, toNat]
    split <;> omega

theorem binary32Value_packBinary32 (negative : Bool) {m k : Nat} (le : m ≤ 2 ^ 24) (normal : k = 0 ∨ 2 ^ 23 ≤ m)
    (finite : m * 2 ^ k < 2 ^ 277) : binary32Value (packBinary32 negative m k) = some (signedUnits negative m k) := by
  have top : (2 ^ 277 : Nat) = 2 ^ 24 * 2 ^ 253 := by rw [← pow_add]
  have exponent : k ≤ 253 := by
    by_contra large
    have infinite : 2 ^ 23 * 2 ^ 254 ≤ m * 2 ^ k :=
      Nat.mul_le_mul (normal.resolve_left (by omega)) (Nat.pow_le_pow_right two_pos (by omega))
    omega
  have uncarried : k = 253 → m < 2 ^ 24 := by
    rintro rfl
    rw [top] at finite
    exact Nat.lt_of_mul_lt_mul_right finite
  obtain ⟨sign, exponentField_pack, fractionField_pack⟩ := packBinary32_fields negative (m := m) (k := k) (by omega)
  obtain subnormal | same | carried : m < 2 ^ 23 ∨ (2 ^ 23 ≤ m ∧ m < 2 ^ 24) ∨ m = 2 ^ 24 := by omega
  case inl =>
    have zero : exponentField (packBinary32 negative m k) = 0 := by omega
    have significand_pack : significand (packBinary32 negative m k) = m := by
      rw [significand, if_pos zero]
      omega
    rw [binary32Value_eq, if_neg (by omega), sign, significand_pack, zero, normal.resolve_right (by omega)]
  case inr.inl =>
    have next : exponentField (packBinary32 negative m k) = k + 1 := by omega
    have significand_pack : significand (packBinary32 negative m k) = m := by
      rw [significand, if_neg (by omega)]
      omega
    rw [binary32Value_eq, if_neg (by omega), sign, significand_pack, next, Nat.add_sub_cancel]
  case inr.inr =>
    have next : exponentField (packBinary32 negative m k) = k + 2 := by omega
    have significand_pack : significand (packBinary32 negative m k) = 2 ^ 23 := by
      rw [significand, if_neg (by omega)]
      omega
    rw [binary32Value_eq, if_neg (by omega), sign, significand_pack, next, carried]
    refine congrArg some ?_
    rw [signedUnits, signedUnits, show k + 2 - 1 = k + 1 by omega]
    push_cast
    ring

/-! ### Rounding -/

/-- The significand and the exponent that the magnitude of `r` rounds to. -/
def roundedParts (r : Rat) : Nat × Nat := roundMagnitude r.num.natAbs r.den

theorem roundedParts_rounds (r : Rat) : Rounds (|r| * 2 ^ 149) (roundedParts r).1 (roundedParts r).2 := by
  have magnitude : |r| = (r.num.natAbs : Rat) / r.den := by
    rw [Rat.abs_def, Rat.divInt_eq_div, Int.cast_natCast, Int.cast_natCast]
  rw [magnitude]
  exact roundMagnitude_rounds _ r.den_pos

/-- The rounding of `r`, infinite or not. -/
def rounded (r : Rat) : Rat := signedUnits (decide (r < 0)) (roundedParts r).1 (roundedParts r).2

theorem overflowsBinary32_iff (mk : Nat × Nat) : overflowsBinary32 mk = true ↔ 2 ^ 277 ≤ mk.1 * 2 ^ mk.2 := by
  rw [overflowsBinary32, decide_eq_true_iff, ← pow_add]

theorem roundBinary32_eq (r : Rat) :
    roundBinary32 r = if 2 ^ 277 ≤ (roundedParts r).1 * 2 ^ (roundedParts r).2 then none
      else some (rounded r) := by
  have value := mkRat_signed (decide (r < 0)) (roundedParts r).1 (roundedParts r).2 149
  rw [rounded, signedUnits, ← value]
  simp only [← overflowsBinary32_iff, decide_eq_true_iff]
  rfl

/-- Settles O44, in units of 2^-149. -/
theorem roundingOverflowsFromTheMidpoint : Obligations.RoundingOverflowsFromTheMidpoint := by
  intro r
  have units : (2 ^ 128 - 2 ^ 103 : Rat) ≤ |r| ↔ (2 ^ 277 - 2 ^ 252 : Rat) ≤ |r| * 2 ^ 149 := by
    rw [show (2 ^ 277 - 2 ^ 252 : Rat) = (2 ^ 128 - 2 ^ 103) * 2 ^ 149 by rw [sub_mul, ← pow_add, ← pow_add]]
    exact (mul_le_mul_iff_left₀ (by positivity)).symm
  rw [units, ← (roundedParts_rounds r).overflow_iff, roundBinary32_eq]
  exact ite_eq_left_iff.trans
    ⟨fun h => by_contra fun finite => Option.some_ne_none _ (h finite), fun infinite finite => absurd infinite finite⟩

/-! ### The distance to a datum -/

/-- `z` is no nearer to `r` than its rounding, and if another value is as near, the rounding is the even one. -/
def NoNearer (r z : Rat) : Prop :=
  |rounded r - r| ≤ |z - r| ∧ (|rounded r - r| = |z - r| → z ≠ rounded r → (roundedParts r).1 % 2 = 0)

/-- Signs that agree. -/
theorem abs_signedUnits_sub (r : Rat) (m k : Nat) :
    |signedUnits (decide (r < 0)) m k - r| = |(m * 2 ^ k : Rat) - |r| * 2 ^ 149| / 2 ^ 149 := by
  have units : (0 : Rat) < 2 ^ 149 := by positivity
  rw [← abs_of_pos units, ← abs_div, abs_of_pos units, sub_div, mul_div_cancel_right₀ _ (by positivity), signedUnits]
  by_cases negative : r < 0
  · rw [abs_of_neg negative, ← abs_neg]
    simp only [negative, decide_true, if_true]
    ring_nf
  · rw [abs_of_nonneg (not_lt.mp negative)]
    simp only [negative, decide_false, Bool.false_eq_true, if_false]
    ring_nf

/-- Signs that differ. -/
theorem abs_signedUnits_sub_of_ne {negative : Bool} {r : Rat} (h : negative ≠ decide (r < 0)) (m k : Nat) :
    |signedUnits negative m k - r| = m * 2 ^ k / 2 ^ 149 + |r| := by
  obtain rfl : negative = !decide (r < 0) := Bool.eq_not_of_ne h
  have nonneg : (0 : Rat) ≤ m * 2 ^ k / 2 ^ 149 := by positivity
  rw [signedUnits]
  by_cases sign : r < 0
  · simp only [sign, decide_true, Bool.not_true, Bool.false_eq_true, if_false, one_mul]
    rw [abs_of_neg sign, abs_of_pos] <;> linarith
  · have := not_lt.mp sign
    simp only [sign, decide_false, Bool.not_false, if_true, neg_mul, one_mul, neg_div]
    rw [abs_of_nonneg this, abs_of_nonpos] <;> linarith

/-- No value of the sign of `r` is nearer to it than its rounding. -/
theorem noNearer_of_sign (r : Rat) {a : Nat} (ha : a < 2 ^ 24) (j : Nat) :
    NoNearer r (signedUnits (decide (r < 0)) a j) := by
  have units : (0 : Rat) < 2 ^ 149 := by positivity
  obtain ⟨closest, tie⟩ := (roundedParts_rounds r).le_abs ha j
  rw [NoNearer, rounded, abs_signedUnits_sub, abs_signedUnits_sub]
  refine ⟨div_le_div_of_nonneg_right closest units.le, fun equal other => tie ((div_left_inj' units.ne').mp equal) ?_⟩
  exact fun same => other (by rw [signedUnits, signedUnits, same])

/-- Nor is one of the other sign: zero is between. -/
theorem noNearer (r : Rat) (negative : Bool) {a : Nat} (ha : a < 2 ^ 24) (j : Nat) :
    NoNearer r (signedUnits negative a j) := by
  by_cases sign : negative = decide (r < 0)
  · rw [sign]
    exact noNearer_of_sign r ha j
  · have beyond : (0 : Rat) ≤ a * 2 ^ j / 2 ^ 149 := by positivity
    obtain ⟨closest, tie⟩ := noNearer_of_sign r (a := 0) (by norm_num) 0
    rw [signedUnits_zero, zero_sub, abs_neg] at closest tie
    rw [NoNearer, abs_signedUnits_sub_of_ne sign]
    refine ⟨by linarith, fun equal other => tie (by linarith) ?_⟩
    have zero : (a * 2 ^ j / 2 ^ 149 : Rat) = 0 := by linarith
    have zero : a = 0 := by simpa using zero
    rwa [zero, signedUnits_zero] at other

/-- One magnitude has one parity: written with an even significand of at most 2^24, it is no datum of an odd one. -/
theorem significand_even {m k a j : Nat} (same : m * 2 ^ k = a * 2 ^ j) (even : m % 2 = 0) (le : m ≤ 2 ^ 24)
    (normal : j = 0 ∨ 2 ^ 23 ≤ a) : a % 2 = 0 := by
  obtain below | rfl | above : j < k ∨ j = k ∨ k < j := by omega
  · obtain ⟨i, rfl⟩ := Nat.exists_eq_add_of_lt below
    have doubled : m * 2 ^ i * 2 * 2 ^ j = a * 2 ^ j := by rw [← same]; ring
    have := Nat.mul_right_cancel (Nat.two_pow_pos j) doubled
    omega
  · rwa [← Nat.mul_right_cancel (Nat.two_pow_pos j) same]
  · obtain ⟨i, rfl⟩ := Nat.exists_eq_add_of_lt above
    have scaled : m * 2 ^ k = a * 2 ^ i * 2 * 2 ^ k := by rw [same]; ring
    have doubled := Nat.mul_right_cancel (Nat.two_pow_pos k) scaled
    have : a ≤ a * 2 ^ i := Nat.le_mul_of_pos_right a (Nat.two_pow_pos i)
    omega

theorem abs_signedUnits (negative : Bool) (m k : Nat) : |signedUnits negative m k| = (m * 2 ^ k : Nat) / 2 ^ 149 := by
  rw [signedUnits, abs_div, abs_mul, abs_of_pos (show (0 : Rat) < 2 ^ 149 by positivity)]
  cases negative <;> simp

theorem units_eq_of_signedUnits_eq {b c : Bool} {m k a j : Nat} (h : signedUnits b m k = signedUnits c a j) :
    m * 2 ^ k = a * 2 ^ j := by
  have magnitudes := congrArg abs h
  rw [abs_signedUnits, abs_signedUnits, div_left_inj' (by positivity)] at magnitudes
  exact_mod_cast magnitudes

theorem roundBinary32_eq_some {r t : Rat} (h : roundBinary32 r = some t) :
    (roundedParts r).1 * 2 ^ (roundedParts r).2 < 2 ^ 277 ∧
      t = rounded r := by
  rw [roundBinary32_eq] at h
  split at h
  · cases h
  · exact ⟨Nat.not_le.mp ‹_›, (Option.some.inj h).symm⟩

/-- Settles O43: the rounding has a datum, no datum is nearer, and where one is as near every datum of the
rounding is even. -/
theorem roundingIsToTheNearest : Obligations.RoundingIsToTheNearest := by
  intro r t h
  obtain ⟨finite, rfl⟩ := roundBinary32_eq_some h
  have rounds := roundedParts_rounds r
  refine ⟨⟨_, binary32Value_packBinary32 _ rounds.le_two_pow rounds.normal finite⟩, fun y u hy => ?_⟩
  obtain ⟨-, rfl⟩ := exists_of_binary32Value hy
  obtain ⟨closest, tie⟩ := noNearer r (y.getLsbD 31) (significand_lt y) (exponentField y - 1)
  refine ⟨closest, fun equal other x hx => ?_⟩
  obtain ⟨-, same⟩ := exists_of_binary32Value hx
  have even := significand_even (units_eq_of_signedUnits_eq same) (tie equal other) rounds.le_two_pow
    (significand_normal x)
  rw [getLsbD_zero_eq, even]
  rfl

end Sys2Proof.Machine
end

