-- ==== Sys2Proof/Proofs/FloatOperands.lean ====
section
/-! PROOFS. `FLOAT_SCALE` under each reading (R112), and the datum of a decimal literal (R81). -/

namespace Sys2Proof.Machine

/-! ### Scaling -/

/-- A binary32 value rounds to itself. -/
theorem roundBinary32_signedUnits (negative : Bool) {m k : Nat} (hm : m < 2 ^ 24) (hk : k ≤ 253) :
    roundBinary32 (signedUnits negative m k) = some (signedUnits negative m k) := by
  have inRange : |signedUnits negative m k| < 2 ^ 128 - 2 ^ 103 := by
    rw [abs_signedUnits, div_lt_iff₀ (by positivity)]
    have : m * 2 ^ k ≤ (2 ^ 24 - 1) * 2 ^ 253 := Nat.mul_le_mul (by omega) (Nat.pow_le_pow_right two_pos hk)
    calc ((m * 2 ^ k : Nat) : Rat) ≤ ((2 ^ 24 - 1) * 2 ^ 253 : Nat) := by exact_mod_cast this
      _ < (2 ^ 128 - 2 ^ 103) * 2 ^ 149 := by norm_num
  cases h : roundBinary32 (signedUnits negative m k) with
  | none => exact absurd ((roundingOverflowsFromTheMidpoint _).mp h) (not_le.mpr inRange)
  | some t =>
    obtain ⟨-, rfl⟩ := roundBinary32_eq_some h
    obtain ⟨closest, -⟩ := noNearer (signedUnits negative m k) negative hm k
    rw [sub_self, abs_zero] at closest
    rw [sub_eq_zero.mp (abs_nonpos_iff.mp closest)]

theorem roundBinary32_of_binary32Value {x : BitVec 32} {v : Rat} (h : binary32Value x = some v) :
    roundBinary32 v = some v := by
  obtain ⟨finite, rfl⟩ := exists_of_binary32Value h
  exact roundBinary32_signedUnits _ (significand_lt x) (by omega)

/-- Up to 10^10 a power of ten is a binary32 value, since 5^10 is below 2^24. -/
theorem roundBinary32_ten_pow {p : Nat} (hp : p ≤ 10) : roundBinary32 (10 ^ p) = some (10 ^ p) := by
  have units : (10 ^ p : Rat) = signedUnits false (5 ^ p) (p + 149) := by
    rw [signedUnits, show (10 : Rat) = 5 * 2 by norm_num, mul_pow, pow_add]
    push_cast
    field_simp
  have small : 5 ^ p < 2 ^ 24 := (Nat.pow_le_pow_right (by norm_num) hp).trans_lt (by norm_num)
  rw [units]
  exact roundBinary32_signedUnits false small (by omega)

/-- The default reading as a chain of results that may be missing. `roundBinary32` is replaced by a variable, since the
kernel would otherwise compute with it to compare the two sides. -/
theorem floatScaleSingle_eq_bind (x : BitVec 32) (p : Nat) :
    floatScaleSingle x p =
      ((binary32Value x).bind fun v => (roundBinary32 (10 ^ p)).bind fun s =>
        (roundBinary32 (v * s)).map truncRat).getD 0 := by
  unfold floatScaleSingle
  obtain ⟨round, same⟩ : ∃ round, round = roundBinary32 := ⟨_, rfl⟩
  rw [← same]
  cases binary32Value x with
  | none => rfl
  | some v =>
    cases round (10 ^ p) with
    | none => rfl
    | some s =>
      dsimp only [Option.bind_some]
      cases round (v * s) <;> rfl

section
variable {x : BitVec 32} {p : Nat} {v s : Rat} (hx : binary32Value x = some v) (hs : roundBinary32 (10 ^ p) = some s)
include hx hs

theorem floatScaleSingle_of_product {t : Rat} (ht : roundBinary32 (v * s) = some t) :
    floatScaleSingle x p = truncRat t := by
  rw [floatScaleSingle_eq_bind, hx, Option.bind_some, hs, Option.bind_some, ht, Option.map_some, Option.getD_some]

theorem floatScaleSingle_of_overflow (h : roundBinary32 (v * s) = none) : floatScaleSingle x p = 0 := by
  rw [floatScaleSingle_eq_bind, hx, Option.bind_some, hs, Option.bind_some, h, Option.map_none, Option.getD_none]

end

theorem floatScaleExact_of_finite {x : BitVec 32} {v : Rat} (hx : binary32Value x = some v) (p : Nat) :
    floatScaleExact x p = truncRat (v * 10 ^ p) := by
  simp [floatScaleExact, hx]

/-- Settles O45: the product is rounded once, and truncation is toward zero. -/
theorem defaultScalingRoundsOnceAndTruncates : Obligations.DefaultScalingRoundsOnceAndTruncates := by
  refine fun x p v s hx hs => ⟨fun t ht => ?_, floatScaleSingle_of_overflow hx hs⟩
  rw [floatScaleOf, floatScaleSingle_of_product hx hs ht]
  exact truncRat_truncates t

/-- Settles O46: neither the power of ten nor the product is rounded. -/
theorem exactProductsScaleExactly : Obligations.ExactProductsScaleExactly := by
  refine ⟨fun x y v p hp hx hy => ⟨?_, floatScaleExact_of_finite hx p⟩, fun x p h => floatScaleSingle_of_nonfinite h p⟩
  exact floatScaleSingle_of_product hx (roundBinary32_ten_pow hp) (roundBinary32_of_binary32Value hy)

theorem floatScaleIterated_of_steps {x : BitVec 32} {p : Nat} {r : Nat → Rat} (hx : binary32Value x = some (r 0))
    (steps : ∀ k < p, roundBinary32 (r k * 10) = some (r (k + 1))) : floatScaleIterated x p = truncRat (r p) := by
  simp [floatScaleIterated, hx, scaleIterated_of_steps p r steps]

/-- Settles O52: both readings truncate the product they end with. -/
theorem exactAndIteratedScalingTruncateTheirProducts : Obligations.ExactAndIteratedScalingTruncateTheirProducts := by
  refine ⟨fun x p v hx => ?exact, fun x p r hx steps => ?iterated⟩
  case exact =>
    rw [floatScaleOf, floatScaleExact_of_finite hx]
    exact truncRat_truncates _
  case iterated =>
    rw [floatScaleOf, floatScaleIterated_of_steps hx steps]
    exact truncRat_truncates _

/-! ### Literals -/

/-- The value of a decimal literal. -/
def decimalValue (x : Decimal) : Rat :=
  if x.negative then -(decimalMagnitude x) else decimalMagnitude x

theorem roundedParts_neg (r : Rat) : roundedParts (-r) = roundedParts r := by
  simp [roundedParts]

theorem roundedParts_zero : roundedParts 0 = (0, 0) := by
  simp [roundedParts, roundMagnitude, nearestEven]

theorem decimalMagnitude_nonneg (x : Decimal) : 0 ≤ decimalMagnitude x := by
  rw [decimalMagnitude, Rat.mkRat_eq_div]
  positivity

theorem roundedParts_decimalValue (x : Decimal) : roundedParts (decimalValue x) = roundedParts (decimalMagnitude x) := by
  unfold decimalValue
  split
  · exact roundedParts_neg _
  · rfl

/-- The sign of a literal is that of its rounding, unless that is zero. -/
theorem rounded_decimalValue (x : Decimal) :
    rounded (decimalValue x) =
      signedUnits x.negative (roundedParts (decimalMagnitude x)).1 (roundedParts (decimalMagnitude x)).2 := by
  rw [rounded, roundedParts_decimalValue]
  obtain zero | positive := (decimalMagnitude_nonneg x).eq_or_lt
  · rw [← zero, roundedParts_zero, signedUnits_zero, signedUnits_zero]
  · have sign : decide (decimalValue x < 0) = x.negative := by
      unfold decimalValue
      cases x.negative <;> simp [positive, positive.le]
    rw [sign]

/-- R81: a finite literal's datum has the value the literal rounds to. -/
theorem binary32Value_binary32OfDecimal {x : Decimal} {t : Rat} (h : roundBinary32 (decimalValue x) = some t) :
    binary32Value (binary32OfDecimal x) = some t := by
  obtain ⟨finite, rfl⟩ := roundBinary32_eq_some h
  have rounds := roundedParts_rounds (decimalMagnitude x)
  rw [roundedParts_decimalValue] at finite
  have packed : binary32OfDecimal x =
      packBinary32 x.negative (roundedParts (decimalMagnitude x)).1 (roundedParts (decimalMagnitude x)).2 :=
    congrArg (fun magnitude => BitVec.ofNat 32 ((if x.negative then 2 ^ 31 else 0) + magnitude))
      (if_neg ((overflowsBinary32_iff _).not.mpr (Nat.not_le.mpr finite)))
  rw [packed, rounded_decimalValue]
  exact binary32Value_packBinary32 _ rounds.le_two_pow rounds.normal finite

/-- Settles O50: the line's word carries the literal's datum in `VAL`. -/
theorem literalsRoundToTheNearest : Obligations.LiteralsRoundToTheNearest := by
  intro gl x p pad hp
  obtain ⟨-, -, -, -, setFloat, -⟩ := eachSyntaxAssemblesToItsCommand gl
  obtain ⟨-, -, value⟩ := formatV_fields 0x5 pad (BitVec.ofNat 4 p) (binary32OfDecimal x)
  refine ⟨_, setFloat x p pad hp, value, fun t ht => ?_⟩
  rw [show (encode (.setFloat (binary32OfDecimal x) p pad)).extractLsb' 0 32 = binary32OfDecimal x from value]
  exact binary32Value_binary32OfDecimal ht

end Sys2Proof.Machine
end
